-- ==== Sys2Proof/Word.lean ====
section
/-!
DEFINITION. The words of the block: bytes, 16-bit values and 32-bit command words (00_scope.md R12).
-/

namespace Sys2Proof

/-- A byte: 8 bits, unsigned (R12). -/
abbrev Byte := BitVec 8

/-- A 16-bit value: a CRC register or a total length (R5, R12). -/
abbrev Half := BitVec 16

/-- A command word `cmd[31:0]` (30_encoding.md R70). -/
abbrev Word := BitVec 32

end Sys2Proof
end

