-- ==== Sys2Proof/Syntax.lean ====
section
/-!
DEFINITION. The commands of the block: one constructor per row of spec/opcode_table.json (30_encoding.md R72).
-/

namespace Sys2Proof

/-- A command with the fields its format carries (30_encoding.md R71, R73). The sequence operand of CRC and BUILD
stands on the sequence port, beside the word (R76, R78), and is not part of the command. -/
inductive Instr where
  /-- LRESET k: reset link k to IDLE (41_parser.md R122). -/
  | lreset (k : BitVec 8)
  /-- TICK k: one timeout tick on link k (R123). -/
  | tick (k : BitVec 8)
  /-- RXB k, b: feed one received byte to link k (R124). -/
  | rxb (k : BitVec 8) (b : Byte)
  /-- CRCU c, b: one table-driven CRC update (40_checksum.md R101). -/
  | crcu (c : Half) (b : Byte)
  /-- CRC: CRC-16 of the sequence (R102). -/
  | crc
  /-- BUILD q: build a frame for the sequence (42_builder.md R160). -/
  | build (q : Byte)
deriving DecidableEq, Repr

/-- The link a format-L command names; CRCU, CRC and BUILD name none (30_encoding.md R71, 41_parser.md R120). -/
def Instr.link? : Instr → Option (BitVec 8)
  | .lreset k => some k
  | .tick k => some k
  | .rxb k _ => some k
  | .crcu _ _ => none
  | .crc => none
  | .build _ => none

end Sys2Proof
end

