-- ==== Sys2Proof/WellFormed.lean ====
section
/-!
DEFINITION. Which commands an instance with NUM_LINKS links has (30_encoding.md R73, R75).
-/

namespace Sys2Proof

/-- The link field of a format-L command is below NUM_LINKS (R75); no other field is limited beyond its width. -/
def linkOk (numLinks : Nat) : Option (BitVec 8) → Bool
  | some k => decide (k.toNat < numLinks)
  | none => true

/-- A command of an instance with `numLinks` links. -/
def WellFormed (numLinks : Nat) (i : Instr) : Bool := linkOk numLinks i.link?

end Sys2Proof
end

