-- ==== Sys2Proof/Decode.lean ====
section
/-!
DEFINITION. The command word: opcode map with match and mask (30_encoding.md R72), the decoder (R73 to R75) and the
encoder (R71). The numbers are the spec's own decision D2 (log 13).
-/

namespace Sys2Proof

/-- Why a word decodes to no command (30_encoding.md R74, R75). -/
inductive DecodeRefusal where
  /-- An opcode outside 0x1 to 0x6, or a must-be-zero field that is not zero (R74). -/
  | reserved
  /-- A link field that is at least NUM_LINKS (R75). -/
  | noLink
deriving DecidableEq, Repr

/-- `cmd[31:28]`, the opcode in every format (R71). -/
def opField (w : Word) : BitVec 4 := w.extractLsb' 28 4

/-- `cmd[27:20]`, the link index of format L (R71). -/
def linkField (w : Word) : BitVec 8 := w.extractLsb' 20 8

/-- `cmd[23:8]`, the CRC register value of format C (R71). -/
def crcField (w : Word) : Half := w.extractLsb' 8 16

/-- `cmd[15:8]`, the queue-id of format S (R71). -/
def qidField (w : Word) : Byte := w.extractLsb' 8 8

/-- `cmd[7:0]`, the data byte of formats L and C (R71). -/
def dataField (w : Word) : Byte := w.extractLsb' 0 8

/-- A row of the opcode map: a word is the command when `w & mask = pattern` (R72). -/
structure OpcodeRow where
  op : BitVec 4
  pattern : Word
  mask : Word
deriving DecidableEq, Repr

/-- LRESET's row (R72). -/
def rowLreset : OpcodeRow := { op := 0x1#4, pattern := 0x10000000#32, mask := 0xF00FFFFF#32 }
/-- TICK's row (R72). -/
def rowTick : OpcodeRow := { op := 0x2#4, pattern := 0x20000000#32, mask := 0xF00FFFFF#32 }
/-- RXB's row (R72). -/
def rowRxb : OpcodeRow := { op := 0x3#4, pattern := 0x30000000#32, mask := 0xF00FFF00#32 }
/-- CRCU's row (R72). -/
def rowCrcu : OpcodeRow := { op := 0x4#4, pattern := 0x40000000#32, mask := 0xFF000000#32 }
/-- CRC's row (R72). -/
def rowCrc : OpcodeRow := { op := 0x5#4, pattern := 0x50000000#32, mask := 0xFFFFFFFF#32 }
/-- BUILD's row (R72). -/
def rowBuild : OpcodeRow := { op := 0x6#4, pattern := 0x60000000#32, mask := 0xFFFF00FF#32 }

/-- The opcode map, every row of it (R72). -/
def opcodeMap : List OpcodeRow := [rowLreset, rowTick, rowRxb, rowCrcu, rowCrc, rowBuild]

/-- The word is one of the row's: `w & mask = match` (R72). -/
def OpcodeRow.matches (r : OpcodeRow) (w : Word) : Bool := (w &&& r.mask) == r.pattern

/-- The row of a word with this opcode holds it: the command, or RESERVED where a must-be-zero field is not zero (R73). -/
def OpcodeRow.read (r : OpcodeRow) (w : Word) (i : Instr) : Except DecodeRefusal Instr :=
  if r.matches w then .ok i else .error .reserved

/-- The command a word's opcode and fields say, NUM_LINKS apart (R73, R74). -/
def decodeWord (w : Word) : Except DecodeRefusal Instr :=
  if opField w = rowLreset.op then rowLreset.read w (.lreset (linkField w))
  else if opField w = rowTick.op then rowTick.read w (.tick (linkField w))
  else if opField w = rowRxb.op then rowRxb.read w (.rxb (linkField w) (dataField w))
  else if opField w = rowCrcu.op then rowCrcu.read w (.crcu (crcField w) (dataField w))
  else if opField w = rowCrc.op then rowCrc.read w .crc
  else if opField w = rowBuild.op then rowBuild.read w (.build (qidField w))
  else .error .reserved

/-- Decoding for an instance with `numLinks` links, total on every 32-bit word (R73, R74, R75). -/
def decode (numLinks : Nat) (w : Word) : Except DecodeRefusal Instr :=
  match decodeWord w with
  | .error r => .error r
  | .ok i => if linkOk numLinks i.link? then .ok i else .error .noLink

/-- A format-L word (R71). -/
def wordL (op : BitVec 4) (k : BitVec 8) (b : Byte) : Word := op ++ k ++ 0#12 ++ b

/-- A format-C word (R71). -/
def wordC (op : BitVec 4) (c : Half) (b : Byte) : Word := op ++ 0#4 ++ c ++ b

/-- A format-S word (R71). -/
def wordS (op : BitVec 4) (q : Byte) : Word := op ++ 0#12 ++ q ++ 0#8

/-- The word of a command (R71, R72). -/
def encode : Instr → Word
  | .lreset k => wordL 0x1#4 k 0#8
  | .tick k => wordL 0x2#4 k 0#8
  | .rxb k b => wordL 0x3#4 k b
  | .crcu c b => wordC 0x4#4 c b
  | .crc => wordS 0x5#4 0#8
  | .build q => wordS 0x6#4 q

/-- The row of the opcode map a command belongs to (R72). -/
def Instr.row : Instr → OpcodeRow
  | .lreset _ => rowLreset
  | .tick _ => rowTick
  | .rxb _ _ => rowRxb
  | .crcu _ _ => rowCrcu
  | .crc => rowCrc
  | .build _ => rowBuild

/-- The command the decoder reads from the word whose bits are `w`, numbered as spec/opcode_table.json numbers them
(bit 0 the least significant). Every command is one 32-bit word (R78), so a longer row has none. The link field is
read and not compared with NUM_LINKS, which is an instance's (log 25). -/
def decodeTableWord (nbits w : Nat) : Option Instr :=
  if 32 < nbits then none
  else
    match decodeWord (BitVec.ofNat 32 (w % 2 ^ nbits)) with
    | .ok i => some i
    | .error _ => none

end Sys2Proof
end

