-- ==== Sys2Proof/Config.lean ====
section
/-!
DEFINITION. The fixed constants of the block (00_scope.md R5), its implementation parameters (R6) and the example
instantiation EX (R8).
-/

namespace Sys2Proof

/-- PRE_LEN: preamble length in bytes (R5). -/
def preLen : Nat := 2

/-- HDR_LEN: header length in bytes, two length bytes and the queue-id (R5). -/
def hdrLen : Nat := 3

/-- CKS_LEN: checksum length in bytes (R5). -/
def cksLen : Nat := 2

/-- OVERHEAD: 2 (preamble) + 3 (header) + 2 (checksum) (R5). -/
def overhead : Nat := 7

/-- CRC_INIT: initial CRC register value (R5). -/
def crcInit : Half := 0xFFFF#16

/-- The largest sequence length `seq_len[15:0]` can say (30_encoding.md R76). -/
def maxSeqLen : Nat := 65535

/-- The implementation parameters the document leaves open (R6), fixed for an instance of the block (R27).
State carries them, so that a claim about every state is a claim about every instance.
DESIGN CHOICE (log 1), safe. -/
structure Params where
  /-- P0, the first preamble byte. -/
  p0 : Byte
  /-- P1, the second preamble byte; it may equal P0. -/
  p1 : Byte
  /-- MAX_PACKET; constraint `10 <= MAX_PACKET`. -/
  maxPacket : Nat
  /-- TIMEOUT in ticks; constraint `1 <= TIMEOUT`. -/
  timeout : Nat
  /-- NUM_LINKS; constraint `1 <= NUM_LINKS <= 256`. -/
  numLinks : Nat
deriving DecidableEq, Repr

/-- EX, the spec's example instantiation (R8). It is no claim about any deployed instance; `State.reset` is the
power-on state of this one. DESIGN CHOICE (log 2), unsafe. -/
def exampleParams : Params :=
  { p0 := 0xAA#8, p1 := 0x55#8, maxPacket := 64, timeout := 3, numLinks := 2 }

end Sys2Proof
end

