-- ==== Sys2Proof/Machine/State.lean ====
section
/-!
DEFINITION. The state of the block (10_state.md R20 to R22), the ports through which a host drives it
(30_encoding.md R70, R76, R77), the reasons a step can stop, and the state after power-on reset (R28, R200).
-/

namespace Sys2Proof.Machine

/-- The five phases of a parser; no other is ever held (10_state.md R22). -/
inductive Phase where
  | idle
  | syncing
  | header
  | payload
  | checksum
deriving DecidableEq, Repr

/-- The record `L[k]` of one link, with exactly the fields of 10_state.md R21. -/
structure Link where
  /-- Current phase. -/
  phase : Phase
  /-- Accumulated preamble bytes. -/
  pre : List Byte
  /-- Accumulated header bytes. -/
  hdr : List Byte
  /-- Accumulated payload bytes. -/
  pay : List Byte
  /-- Accumulated checksum bytes. -/
  cks : List Byte
  /-- Declared total length, 16 bits. -/
  tlen : Half
  /-- Target queue-id, 8 bits. -/
  qid : Byte
  /-- Remaining timeout ticks, 0 to TIMEOUT. -/
  cd : Nat
deriving DecidableEq, Repr

/-- Drop reasons: annotations of the model's trace, never outputs of the block (60_exceptions.md R181, 00_scope.md R11). -/
inductive Drop where
  | noise
  | sync
  | lenSmall
  | lenLarge
  | crc
  | timeout
deriving DecidableEq, Repr

/-- Rejection codes of BUILD (60_exceptions.md R182). -/
inductive Reject where
  | empty
  | width
  | tooLarge
deriving DecidableEq, Repr

/-- What the result port carries for one step (30_encoding.md R77). -/
inductive Event where
  /-- `Deliver(k, qid, payload)` (41_parser.md R130). -/
  | deliver (k : BitVec 8) (qid : Byte) (payload : List Byte)
  /-- `crc_out` of CRCU and CRC (40_checksum.md R101, R102). -/
  | crcOut (v : Half)
  /-- `Frame(bytes)` of BUILD (42_builder.md R160). -/
  | frame (bytes : List Byte)
  /-- `Reject(code)` of BUILD (R160). -/
  | reject (code : Reject)
deriving DecidableEq, Repr

/-- A command as the host presents it: the word on the command port and the bytes on the sequence port
(30_encoding.md R70, R76). -/
structure Command where
  word : Word
  seq : List Byte
deriving DecidableEq, Repr

/-- The machine. `links` is the spec's state (10_state.md R20); `params` are the instance's constants (R27, log 1);
the other fields are the model's own picture of the ports, to which the spec gives no storage (log 3, log 5). -/
structure State where
  /-- The parameters of the instance; no step changes them (R27). -/
  params : Params
  /-- `L[0..NUM_LINKS-1]` (R20). -/
  links : List Link
  /-- The commands the host has still to issue, oldest first (00_scope.md R10, R15). DESIGN CHOICE (log 3), safe. -/
  pending : List Command
  /-- `seq[0..seq_len)` on the sequence port (30_encoding.md R76). -/
  seq : List Byte
  /-- The result port: the output event of the last step (R77). -/
  out : Option Event
  /-- The trace annotation of the last step, no output of the block (00_scope.md R11). -/
  note : Option Drop
deriving DecidableEq, Repr

/-- The block has no trap or exception mechanism (60_exceptions.md R180): no step faults. -/
inductive Fault where
deriving DecidableEq, Repr

/-- Refusals are the model's, not the block's (60_exceptions.md R183); one ends the run. All are safe: the model stops. -/
inductive Refusal where
  /-- An instruction that has no meaning yet, raised by `exec` alone. Safe. -/
  | notModelled (mnemonic : String)
  /-- `refuse(RESERVED)`, raised by `step` for a word that no row of the opcode map matches (30_encoding.md R74). Safe. -/
  | reserved
  /-- `refuse(NO_LINK)`, raised by `step` and by LRESET, TICK and RXB for a link index that is at least NUM_LINKS (R75). Safe. -/
  | noLink
  /-- Raised by `step` for an instance whose parameters break a constraint (00_scope.md R6, 93_implementation_defined.md I2 to I4). Safe. -/
  | badInstance
  /-- Raised by RXB for a link in PAYLOAD with `tlen <= OVERHEAD`, to which the spec gives no value and which no run
  reaches (93_implementation_defined.md I6, 41_parser.md R128; log 8). Safe. -/
  | payloadLength
  /-- Raised by CRC and BUILD for a sequence of more than 65535 bytes, which the port cannot present (30_encoding.md R76; log 9). Safe. -/
  | sequenceTooLong
deriving DecidableEq, Repr

/-- A link after reset (10_state.md R28). -/
def Link.reset : Link :=
  { phase := .idle, pre := [], hdr := [], pay := [], cks := [], tlen := 0#16, qid := 0#8, cd := 0 }

/-- Power-on reset of an instance: every link in its reset state, no event (70_reset_and_hazards.md R200), and no
command issued yet. -/
def State.powerOn (p : Params) : State :=
  { params := p, links := List.replicate p.numLinks Link.reset, pending := [], seq := [], out := none, note := none }

/-- The machine right after reset, for the example instantiation EX (R8, R200). DESIGN CHOICE of the instance
(log 2), unsafe. -/
def State.reset : State := State.powerOn exampleParams

end Sys2Proof.Machine
end

