-- ==== Sys2Proof/Machine/Operands.lean ====
section
/-!
DEFINITION. The derived constants of an instance (00_scope.md R6, R7), the operands a command can have (30_encoding.md
R71, R76) and fetching a command from the command port (R70).
-/

namespace Sys2Proof

/-- The constraints of R6 (decision D13). -/
def Params.ok (p : Params) : Bool :=
  decide (10 ≤ p.maxPacket) && decide (1 ≤ p.timeout) && decide (1 ≤ p.numLinks) && decide (p.numLinks ≤ 256)

/-- MAX_TOTAL, the largest total length the parser accepts and the builder emits (R7; conflict C1, log 14). -/
def Params.maxTotal (p : Params) : Nat := p.maxPacket - preLen

/-- MAX_PAYLOAD, the largest payload the block carries (R7). -/
def Params.maxPayload (p : Params) : Nat := p.maxTotal - overhead

namespace Machine

/-- The link operand of format L: `L[k]`, or none where `k >= NUM_LINKS` (30_encoding.md R71, R75). -/
def State.link? (s : State) (k : BitVec 8) : Option Link :=
  if k.toNat < s.params.numLinks then s.links[k.toNat]? else none

/-- The sequence operand of format S: `seq[0..seq_len)`, or none where no `seq_len` can say its length (R76). -/
def State.sequence? (s : State) : Option (List Byte) :=
  if s.seq.length ≤ maxSeqLen then some s.seq else none

/-- The host issues its next command: the word to decode, and the state in which its sequence is on the sequence port
(30_encoding.md R70, R76; 00_scope.md R15). None where the host issues nothing. -/
def State.fetch (s : State) : Option (Word × State) :=
  match s.pending with
  | [] => none
  | c :: rest => some (c.word, { s with pending := rest, seq := c.seq })

end Machine

end Sys2Proof
end

