-- ==== Sys2Proof/Machine/Ops.lean ====
section
/-!
DEFINITION. The shared operations of the rules: byte order (00_scope.md R13), the return to IDLE and the drop
(41_parser.md R121, 60_exceptions.md R186), and what a step leaves on the result port (00_scope.md R14, 30_encoding.md R77).
The block takes no exception and returns from none (60_exceptions.md R180, R187): the drop stands in that place.
-/

namespace Sys2Proof.Machine

/-- `lo(v) = v & 0xFF` (R13). -/
def lo (v : Half) : Byte := v.extractLsb' 0 8

/-- `hi(v) = (v >> 8) & 0xFF` (R13). -/
def hi (v : Half) : Byte := v.extractLsb' 8 8

/-- `le16(v) = [lo(v), hi(v)]` (R13, 40_checksum.md R103). -/
def le16 (v : Half) : List Byte := [lo v, hi v]

/-- `b0 | (b1 << 8)`, zero-extended (30_encoding.md R61). -/
def fromLe16 (b0 b1 : Byte) : Half := b0.setWidth 16 ||| (b1.setWidth 16 <<< 8)

/-- `hdr[0] | (hdr[1] << 8)`, read by R127 only when the header holds two bytes. -/
def lengthField (hdr : List Byte) : Half := fromLe16 (hdr.getD 0 0#8) (hdr.getD 1 0#8)

/-- `to_idle`: phase IDLE, all buffers empty, tlen and qid 0; `cd` is left alone (41_parser.md R121). -/
def Link.toIdle (l : Link) : Link :=
  { l with phase := .idle, pre := [], hdr := [], pay := [], cks := [], tlen := 0#16, qid := 0#8 }

/-- What a command makes of its link: the new record, the event it emits and the trace annotation it leaves
(00_scope.md R10, R14). -/
structure LinkStep where
  link : Link
  out : Option Event
  note : Option Drop
deriving DecidableEq, Repr

/-- A step on a link that emits and annotates nothing. -/
def Link.quiet (l : Link) : LinkStep := { link := l, out := none, note := none }

/-- A step that leaves annotation `r` and emits nothing (R14). -/
def Link.annotate (l : Link) (r : Drop) : LinkStep := { link := l, out := none, note := some r }

/-- `drop(r)`: `to_idle` with annotation `r`; it saves nothing and transfers control nowhere (41_parser.md R121, 60_exceptions.md R186). -/
def Link.drop (l : Link) (r : Drop) : LinkStep := l.toIdle.annotate r

/-- The step of a link command: link k's new record, its event and its annotation (41_parser.md R120). -/
def State.commit (s : State) (k : BitVec 8) (r : LinkStep) : State :=
  { s with links := s.links.set k.toNat r.link, out := r.out, note := r.note }

/-- The step of CRCU, CRC and BUILD: a result on the result port and no state written (10_state.md R31, 30_encoding.md R77). -/
def State.result (s : State) (e : Event) : State := { s with out := some e, note := none }

/-- A command on link k, refused NO_LINK where the instance has no such link (30_encoding.md R75). -/
def State.onLink (s : State) (k : BitVec 8) (f : Link → Host.Outcome LinkStep Fault Refusal) :
    Host.Outcome State Fault Refusal :=
  match s.link? k with
  | none => .refused .noLink
  | some l =>
    match f l with
    | .next r => .next (s.commit k r)
    | .fault e => .fault e
    | .refused e => .refused e

/-- A command on the sequence operand, refused where the port cannot present the sequence (30_encoding.md R76). -/
def State.onSequence (s : State) (f : List Byte → Event) : Host.Outcome State Fault Refusal :=
  match s.sequence? with
  | none => .refused .sequenceTooLong
  | some p => .next (s.result (f p))

end Sys2Proof.Machine
end

