-- ==== Sys2Proof/Machine/Checksum.lean ====
section
/-!
DEFINITION. The Checksum Engine: CRCU and CRC (40_checksum.md R101, R102).
-/

namespace Sys2Proof.Machine

/-- `crcu(c, b) = (c >> 8) ^ TABLE[(c ^ b) & 0xFF]` (R101). -/
def crcu (c : Half) (b : Byte) : Half := (c >>> 8) ^^^ tableAt (lo c ^^^ b)

/-- `CRC16(s)`: the fold of `crcu` over the bytes in order from CRC_INIT, with no final exclusive-or (R102; log 11). -/
def crc16 (s : List Byte) : Half := s.foldl crcu crcInit

/-- CRCU c, b (R101). -/
def execCrcu (c : Half) (b : Byte) (s : State) : Host.Outcome State Fault Refusal :=
  .next (s.result (.crcOut (crcu c b)))

/-- CRC (R102). -/
def execCrc (s : State) : Host.Outcome State Fault Refusal :=
  s.onSequence fun p => .crcOut (crc16 p)

end Sys2Proof.Machine
end

