-- ==== Sys2Proof/Machine/Builder.lean ====
section
/-!
DEFINITION. The Packet Builder: BUILD (42_builder.md R160).
-/

namespace Sys2Proof.Machine

/-- The first five bytes of a frame: preamble, total length little-endian, queue-id (30_encoding.md R60). -/
def frameHead (p : Params) (q : Byte) (t : Half) : List Byte := [p.p0, p.p1] ++ le16 t ++ [q]

/-- A frame: head, payload, CRC little-endian over bytes `[0, 5+N)` (30_encoding.md R60). -/
def frameOf (p : Params) (q : Byte) (payload : List Byte) : List Byte :=
  let body := frameHead p q (BitVec.ofNat 16 (payload.length + overhead)) ++ payload
  body ++ le16 (crc16 body)

/-- BUILD's pseudocode (R160): EMPTY, WIDTH, TOO_LARGE tested in that order; then the frame. -/
def buildEvent (p : Params) (q : Byte) (payload : List Byte) : Event :=
  if payload.length = 0 then .reject .empty
  else if 0xFFFF < payload.length + overhead then .reject .width
  else if p.maxTotal < payload.length + overhead then .reject .tooLarge
  else .frame (frameOf p q payload)

/-- BUILD q (R160). -/
def execBuild (q : Byte) (s : State) : Host.Outcome State Fault Refusal :=
  s.onSequence fun payload => buildEvent s.params q payload

end Sys2Proof.Machine
end

