-- ==== Sys2Proof/Machine/Parser.lean ====
section
/-!
DEFINITION. The Frame Parser and its timeout: LRESET, TICK and RXB with its five arms (41_parser.md R122 to R129).
Each arm follows the rule's pseudocode line by line, in states that no run reaches too (log 17).
-/

namespace Sys2Proof.Machine

/-- LRESET's pseudocode (R122). -/
def Link.lreset (l : Link) : Link := { l.toIdle with cd := 0 }

/-- TICK's pseudocode (R123; decision D5): nothing at 0; forced to IDLE on the tick that takes `cd` from 1 to 0. -/
def Link.tick (l : Link) : LinkStep :=
  if 0 < l.cd then
    let l1 := { l with cd := l.cd - 1 }
    if l1.cd = 0 then
      if l1.phase ≠ .idle then l1.drop .timeout else l1.toIdle.quiet
    else l1.quiet
  else l.quiet

/-- The IDLE arm: the matching byte is stored (R125, decision D3); any other is noise. -/
def Link.rxbIdle (p : Params) (l : Link) (b : Byte) : LinkStep :=
  if b = p.p0 then { l with pre := [b], phase := .syncing }.quiet else l.annotate .noise

/-- The SYNCING arm; a mismatching byte is consumed by the drop (R126, R132). -/
def Link.rxbSync (p : Params) (l : Link) (b : Byte) : LinkStep :=
  let l1 := { l with pre := l.pre ++ [b] }
  if l1.pre.length = preLen then
    if l1.pre = [p.p0, p.p1] then { l1 with phase := .header }.quiet else l1.drop .sync
  else l1.quiet

/-- The length test of the HEADER arm, on the second header byte (R127; the byte that completes the length is the one
the drop consumes, decision D23, log 15). -/
def Link.headerLength (p : Params) (l : Link) : LinkStep :=
  if l.hdr.length = hdrLen - 1 then
    let l1 := { l with tlen := lengthField l.hdr }
    if l1.tlen.toNat ≤ overhead then l1.drop .lenSmall
    else if p.maxTotal < l1.tlen.toNat then l1.drop .lenLarge
    else l1.quiet
  else l.quiet

/-- The queue-id test of the HEADER arm, on the third header byte (R127), evaluated on its own after the length test (R133). -/
def Link.headerQid (l : Link) (b : Byte) : Link :=
  if l.hdr.length = hdrLen then { l with qid := b, phase := .payload } else l

/-- The HEADER arm (R127). -/
def Link.rxbHeader (p : Params) (l : Link) (b : Byte) : LinkStep :=
  let r := { l with hdr := l.hdr ++ [b] }.headerLength p
  { r with link := r.link.headerQid b }

/-- The PAYLOAD arm (R128); `rxb` calls it only with `tlen > OVERHEAD`. -/
def Link.rxbPayload (l : Link) (b : Byte) : LinkStep :=
  let l1 := { l with pay := l.pay ++ [b] }
  if l1.pay.length = l1.tlen.toNat - overhead then { l1 with phase := .checksum }.quiet else l1.quiet

/-- The bytes the checksum covers: frame bytes `[0, 5+N)` (R129, 30_encoding.md R60). -/
def Link.covered (l : Link) : List Byte := l.pre ++ l.hdr ++ l.pay

/-- The CHECKSUM arm (R129, R130): deliver and return to IDLE, or drop. -/
def Link.rxbChecksum (k : BitVec 8) (l : Link) (b : Byte) : LinkStep :=
  let l1 := { l with cks := l.cks ++ [b] }
  if l1.cks.length = cksLen then
    if l1.cks = le16 (crc16 l1.covered) then
      { link := l1.toIdle, out := some (.deliver k l1.qid l1.pay), note := none }
    else l1.drop .crc
  else l1.quiet

/-- RXB's choice of arm (R124). -/
def Link.rxbArm (p : Params) (k : BitVec 8) (l : Link) (b : Byte) : LinkStep :=
  match l.phase with
  | .idle => l.rxbIdle p b
  | .syncing => l.rxbSync p b
  | .header => l.rxbHeader p b
  | .payload => l.rxbPayload b
  | .checksum => l.rxbChecksum k b

/-- `L[k].cd <- TIMEOUT`, on every byte, in every phase, whatever the arm did (R124). -/
def LinkStep.restore (p : Params) (r : LinkStep) : LinkStep := { r with link := { r.link with cd := p.timeout } }

/-- The one case to which the spec gives no value: PAYLOAD with `tlen <= OVERHEAD`, where R128's subtraction has no
natural result. No run reaches it (10_state.md R24; 93_implementation_defined.md I6; log 8). -/
def Link.payloadUndefined (l : Link) : Bool := decide (l.phase = .payload) && decide (l.tlen.toNat ≤ overhead)

/-- RXB's pseudocode (R124). -/
def Link.rxb (p : Params) (k : BitVec 8) (l : Link) (b : Byte) : Host.Outcome LinkStep Fault Refusal :=
  if l.payloadUndefined then .refused .payloadLength else .next ((l.rxbArm p k b).restore p)

/-- LRESET k (R122). -/
def execLreset (k : BitVec 8) (s : State) : Host.Outcome State Fault Refusal :=
  s.onLink k fun l => .next l.lreset.quiet

/-- TICK k (R123). -/
def execTick (k : BitVec 8) (s : State) : Host.Outcome State Fault Refusal :=
  s.onLink k fun l => .next l.tick

/-- RXB k, b (R124). -/
def execRxb (k : BitVec 8) (b : Byte) (s : State) : Host.Outcome State Fault Refusal :=
  s.onLink k fun l => l.rxb s.params k b

end Sys2Proof.Machine
end

