-- ==== Sys2Proof/Machine/Dispatch.lean ====
section
/-!
DEFINITION. The meaning of each command, one arm per constructor of Instr.
-/

namespace Sys2Proof.Machine

/-- The step of one command (00_scope.md R10). -/
def exec (i : Instr) (s : State) : Host.Outcome State Fault Refusal :=
  match i with
  | .lreset k => Sys2Proof.Machine.execLreset k s
  | .tick k => Sys2Proof.Machine.execTick k s
  | .rxb k b => Sys2Proof.Machine.execRxb k b s
  | .crcu c b => Sys2Proof.Machine.execCrcu c b s
  | .crc => Sys2Proof.Machine.execCrc s
  | .build q => Sys2Proof.Machine.execBuild q s

end Sys2Proof.Machine
end

