-- ==== Sys2Proof/Machine/Step.lean ====
section
/-!
DEFINITION. One step of the block: the host issues its next command, the block decodes it and does it (00_scope.md R10,
30_encoding.md R70, R73).
-/

namespace Sys2Proof.Machine

/-- The refusal of a word that decodes to no command (60_exceptions.md R183). -/
def refusalOf : DecodeRefusal → Refusal
  | .reserved => .reserved
  | .noLink => .noLink

/-- One step. An instance whose parameters break a constraint is refused (00_scope.md R6). A host that issues no command
leaves the block as it is, with nothing on the result port (60_exceptions.md R194; log 4). -/
def step (s : State) : Host.Outcome State Fault Refusal :=
  if s.params.ok then
    match s.fetch with
    | none => .next { s with out := none, note := none }
    | some (w, s1) =>
      match decode s.params.numLinks w with
      | .ok i => exec i s1
      | .error r => .refused (refusalOf r)
  else .refused .badInstance

/-- The state in which the command whose word has bits `w` is the next the host issues; the bytes on the sequence port
stay as they are. It stands for the host's issuing the command (log 3). -/
def State.withFetchWord (s : State) (nbits w : Nat) : State :=
  { s with pending := { word := BitVec.ofNat 32 (w % 2 ^ nbits), seq := s.seq } :: s.pending }

end Sys2Proof.Machine
end

