-- ==== Sys2Proof/Machine/Assembler.lean ====
section
/-!
DEFINITION. The assembler syntax and the pseudo-commands (30_encoding.md R79, R80): what a line of a program puts on the
command and sequence ports. Text is a list of characters.
-/

namespace Sys2Proof.Machine

/-- A line of R79, or a pseudo-command of R80. -/
inductive Asm where
  | lreset (k : BitVec 8)
  | tick (k : BitVec 8)
  | rxb (k : BitVec 8) (b : Byte)
  | crcu (c : Half) (b : Byte)
  | crc (seq : List Byte)
  | build (q : Byte) (seq : List Byte)
  | rxs (k : BitVec 8) (bytes : List Byte)
  | cycle (k : BitVec 8) (bytes : List Byte)
  | wait (k : BitVec 8) (n : Nat)
deriving DecidableEq, Repr

/-- A command that reads no sequence, with nothing on the sequence port (R76). -/
def plainCommand (i : Instr) : Command := { word := encode i, seq := [] }

/-- RXS: one RXB a byte, in order (R80). -/
def rxsCommands (k : BitVec 8) (bytes : List Byte) : List Command := bytes.map fun b => plainCommand (.rxb k b)

/-- The commands a line stands for (R79, R80). -/
def Asm.commands : Asm → List Command
  | .lreset k => [plainCommand (.lreset k)]
  | .tick k => [plainCommand (.tick k)]
  | .rxb k b => [plainCommand (.rxb k b)]
  | .crcu c b => [plainCommand (.crcu c b)]
  | .crc seq => [{ word := encode .crc, seq := seq }]
  | .build q seq => [{ word := encode (.build q), seq := seq }]
  | .rxs k bytes => rxsCommands k bytes
  | .cycle k bytes => plainCommand (.tick k) :: rxsCommands k bytes
  | .wait k n => List.replicate n (plainCommand (.tick k))

/-- The value of a digit, decimal or hexadecimal in either case. -/
def digitValue (c : Char) : Option Nat :=
  let n := c.toNat
  if 48 ≤ n ∧ n ≤ 57 then some (n - 48)
  else if 65 ≤ n ∧ n ≤ 70 then some (n - 55)
  else if 97 ≤ n ∧ n ≤ 102 then some (n - 87)
  else none

/-- The number that digits of a base write, most significant first. -/
def digitsValue (base : Nat) : Nat → List Char → Option Nat
  | acc, [] => some acc
  | acc, c :: cs =>
    match digitValue c with
    | some d => if d < base then digitsValue base (acc * base + d) cs else none
    | none => none

/-- A number in hexadecimal, written with 0x in front (R79). -/
def hexNumber : List Char → Option Nat
  | '0' :: 'x' :: c :: cs => digitsValue 16 0 (c :: cs)
  | _ => none

/-- A number, decimal or 0x-hex (R79). -/
def number (cs : List Char) : Option Nat :=
  match cs with
  | [] => none
  | '0' :: 'x' :: _ => hexNumber cs
  | _ => digitsValue 10 0 cs

/-- A number that fits `w` bits. -/
def fits (w : Nat) : Option Nat → Option (BitVec w)
  | some n => if n < 2 ^ w then some (BitVec.ofNat w n) else none
  | none => none

/-- A byte of a sequence: one or two hexadecimal digits without 0x (R79; DESIGN CHOICE of the digit count, log 23, safe). -/
def seqByte : List Char → Option Byte
  | [a] => fits 8 (digitsValue 16 0 [a])
  | [a, b] => fits 8 (digitsValue 16 0 [a, b])
  | _ => none

/-- The pieces of a line: words and the three punctuation marks of R79. -/
inductive Token where
  | word (cs : List Char)
  | comma
  | opening
  | closing
deriving DecidableEq, Repr

/-- The word read so far, held backwards, as a token. -/
def flushWord : List Char → List Token
  | [] => []
  | cs => [.word cs.reverse]

/-- The tokens of a line; `;` starts a comment (R79). -/
def tokens : List Char → List Char → List Token
  | cur, [] => flushWord cur
  | cur, c :: cs =>
    if c = ';' then flushWord cur
    else if c = ' ' then flushWord cur ++ tokens [] cs
    else if c = ',' then flushWord cur ++ .comma :: tokens [] cs
    else if c = '[' then flushWord cur ++ .opening :: tokens [] cs
    else if c = ']' then flushWord cur ++ .closing :: tokens [] cs
    else tokens (c :: cur) cs

/-- The bytes of a sequence up to its closing bracket, which ends the line (R79). -/
def seqTokens : List Token → Option (List Byte)
  | [.closing] => some []
  | .word cs :: rest =>
    match seqByte cs, seqTokens rest with
    | some b, some bs => some (b :: bs)
    | _, _ => none
  | _ => none

/-- A line with a mnemonic and one number. -/
def lineNumber (m n : List Char) : Option Asm :=
  if m = ['L', 'R', 'E', 'S', 'E', 'T'] then (fits 8 (number n)).map .lreset
  else if m = ['T', 'I', 'C', 'K'] then (fits 8 (number n)).map .tick
  else none

/-- A line with a mnemonic and two numbers; a byte is written in 0x-hex (R79). -/
def linePair (m x y : List Char) : Option Asm :=
  if m = ['R', 'X', 'B'] then
    match fits 8 (number x), fits 8 (hexNumber y) with
    | some k, some b => some (.rxb k b)
    | _, _ => none
  else if m = ['C', 'R', 'C', 'U'] then
    match fits 16 (number x), fits 8 (hexNumber y) with
    | some c, some b => some (.crcu c b)
    | _, _ => none
  else if m = ['W', 'A', 'I', 'T'] then
    match fits 8 (number x), number y with
    | some k, some n => some (.wait k n)
    | _, _ => none
  else none

/-- A line with a mnemonic, a number and a sequence. -/
def lineSequence (m x : List Char) (bytes : Option (List Byte)) : Option Asm :=
  match fits 8 (number x), bytes with
  | some v, some bs =>
    if m = ['B', 'U', 'I', 'L', 'D'] then some (.build v bs)
    else if m = ['R', 'X', 'S'] then some (.rxs v bs)
    else if m = ['C', 'Y', 'C', 'L', 'E'] then some (.cycle v bs)
    else none
  | _, _ => none

/-- A line of R79 and R80, from its tokens. -/
def parseTokens : List Token → Option Asm
  | [.word m, .word n] => lineNumber m n
  | [.word m, .word x, .comma, .word y] => linePair m x y
  | .word m :: .opening :: rest => if m = ['C', 'R', 'C'] then (seqTokens rest).map .crc else none
  | .word m :: .word x :: .comma :: .opening :: rest => lineSequence m x (seqTokens rest)
  | _ => none

/-- The commands of a line; a blank line or a comment stands for none (R79). -/
def assembleLine (line : List Char) : Option (List Command) :=
  match tokens [] line with
  | [] => some []
  | ts => (parseTokens ts).map Asm.commands

/-- The commands of a program, one line a command (R79). -/
def assemble : List (List Char) → Option (List Command)
  | [] => some []
  | line :: rest =>
    match assembleLine line, assemble rest with
    | some cs, some ds => some (cs ++ ds)
    | _, _ => none

end Sys2Proof.Machine
end

