-- ==== Sys2Proof/Safety.lean ====
section
/-!
DEFINITION. The terms in which claims speak of the block: the invariant of reachable states (10_state.md R24), runs of
commands with what each step shows (00_scope.md R10, R11), and byte streams fed to a link (30_encoding.md R62).
-/

namespace Sys2Proof.Machine

/-- The bounds every accepted total length meets: `OVERHEAD < tlen <= MAX_TOTAL` (R24). -/
abbrev lengthOk (p : Params) (tlen : Half) : Prop := overhead < tlen.toNat ∧ tlen.toNat ≤ p.maxTotal

/-- R24's row IDLE. -/
abbrev Link.idleInv (l : Link) : Prop :=
  l.pre = [] ∧ l.hdr = [] ∧ l.pay = [] ∧ l.cks = [] ∧ l.tlen = 0#16 ∧ l.qid = 0#8

/-- R24's row SYNCING. -/
abbrev Link.syncInv (p : Params) (l : Link) : Prop :=
  l.pre = [p.p0] ∧ l.hdr = [] ∧ l.pay = [] ∧ l.cks = [] ∧ l.tlen = 0#16 ∧ l.qid = 0#8

/-- R24's row HEADER. -/
abbrev Link.headerInv (p : Params) (l : Link) : Prop :=
  l.pre = [p.p0, p.p1] ∧ l.pay = [] ∧ l.cks = [] ∧ l.qid = 0#8 ∧
    ((l.hdr.length ≤ 1 ∧ l.tlen = 0#16) ∨
      (l.hdr.length = 2 ∧ l.tlen = lengthField l.hdr ∧ lengthOk p l.tlen))

/-- What R24's rows PAYLOAD and CHECKSUM share. -/
abbrev Link.bodyInv (p : Params) (l : Link) : Prop :=
  l.pre = [p.p0, p.p1] ∧ l.hdr.length = 3 ∧ l.tlen = lengthField l.hdr ∧ lengthOk p l.tlen ∧
    l.qid = l.hdr.getD 2 0#8

/-- R24's row PAYLOAD. -/
abbrev Link.payloadInv (p : Params) (l : Link) : Prop :=
  l.bodyInv p ∧ l.cks = [] ∧ l.pay.length < l.tlen.toNat - overhead

/-- R24's row CHECKSUM. -/
abbrev Link.checksumInv (p : Params) (l : Link) : Prop :=
  l.bodyInv p ∧ l.cks.length ≤ 1 ∧ l.pay.length = l.tlen.toNat - overhead

/-- The row of R24 that belongs to the link's phase. -/
def Link.rowInv (p : Params) (l : Link) : Bool :=
  match l.phase with
  | .idle => decide l.idleInv
  | .syncing => decide (l.syncInv p)
  | .header => decide (l.headerInv p)
  | .payload => decide (l.payloadInv p)
  | .checksum => decide (l.checksumInv p)

/-- The invariant of a link: the row of its phase, `cd <= TIMEOUT`, and `cd >= 1` outside IDLE (R24). -/
abbrev Link.Inv (p : Params) (l : Link) : Prop :=
  l.rowInv p = true ∧ l.cd ≤ p.timeout ∧ (l.phase ≠ .idle → 1 ≤ l.cd)

/-- The invariant of the machine: the instance meets its constraints, it has NUM_LINKS links, and each meets its own. -/
abbrev State.Inv (s : State) : Prop :=
  s.params.ok = true ∧ s.links.length = s.params.numLinks ∧ ∀ l ∈ s.links, l.Inv s.params

/-- What one step shows: the event on the result port and the annotation of the trace (00_scope.md R11). -/
abbrev Shown := Option Event × Option Drop

/-- A step that shows nothing. -/
abbrev silent : Shown := (none, none)

/-- The commands of a list done one after the other: the last state and what each step showed, in order (R10); none where
one is refused. -/
def doAll : List Instr → State → Option (State × List Shown)
  | [], s => some (s, [])
  | i :: is, s =>
    match exec i s with
    | .next s1 => (doAll is s1).map fun r => (r.1, (s1.out, s1.note) :: r.2)
    | .fault _ => none
    | .refused _ => none

/-- The same for commands that each present a sequence of their own (30_encoding.md R76). -/
def doPresented : List (Instr × List Byte) → State → Option (State × List Shown)
  | [], s => some (s, [])
  | c :: cs, s =>
    match exec c.1 { s with seq := c.2 } with
    | .next s1 => (doPresented cs s1).map fun r => (r.1, (s1.out, s1.note) :: r.2)
    | .fault _ => none
    | .refused _ => none

/-- The same for `n` steps of the machine. -/
def stepAll : Nat → State → Option (State × List Shown)
  | 0, s => some (s, [])
  | n + 1, s =>
    match step s with
    | .next s1 => (stepAll n s1).map fun r => (r.1, (s1.out, s1.note) :: r.2)
    | .fault _ => none
    | .refused _ => none

/-- The commands that feed a byte string to link k (RXS, 30_encoding.md R80). -/
def feed (k : BitVec 8) (f : List Byte) : List Instr := f.map fun b => .rxb k b

/-- The commands that feed bytes to link k, each after the number of ticks it is paired with (70_reset_and_hazards.md R203, R207). -/
def feedWithTicks (k : BitVec 8) (f : List (Nat × Byte)) : List Instr :=
  f.flatMap fun x => List.replicate x.1 (.tick k) ++ [.rxb k x.2]

/-- The bytes that a list of commands feeds to link k, in order. -/
def bytesTo (k : BitVec 8) (is : List Instr) : List Byte :=
  is.filterMap fun i =>
    match i with
    | .rxb j b => if j = k then some b else none
    | .lreset _ => none
    | .tick _ => none
    | .crcu _ _ => none
    | .crc => none
    | .build _ => none

/-- No TIMEOUT ticks in a row between two consecutive bytes (R207, 30_encoding.md R62); those before the first byte are free. -/
def gapsShort (p : Params) (f : List (Nat × Byte)) : Prop := ∀ x ∈ f.tail, x.1 < p.timeout

/-- The total-length field of a byte string taken as a frame (30_encoding.md R61). -/
def frameLength (f : List Byte) : Nat := (fromLe16 (f.getD 2 0#8) (f.getD 3 0#8)).toNat

/-- The preamble and length conditions of R62 on a byte string of at least four bytes. -/
def headOk (p : Params) (f : List Byte) : Prop :=
  f.getD 0 0#8 = p.p0 ∧ f.getD 1 0#8 = p.p1 ∧ overhead < frameLength f ∧ frameLength f ≤ p.maxTotal

/-- An accepted frame with queue-id q and a payload: every condition of R62 (a), with the fields of R61. -/
def Accepted (p : Params) (f : List Byte) (q : Byte) (payload : List Byte) : Prop :=
  headOk p f ∧ f.length = frameLength f ∧ q = f.getD 4 0#8 ∧ payload = (f.drop 5).take (frameLength f - overhead) ∧
    f.drop (f.length - cksLen) = le16 (crc16 (f.take (f.length - cksLen)))

/-- A link in IDLE with empty buffers, and this countdown (10_state.md R24, R28). -/
def Link.idleWith (cd : Nat) : Link :=
  { phase := .idle, pre := [], hdr := [], pay := [], cks := [], tlen := 0#16, qid := 0#8, cd := cd }

/-- What a list of commands shows on link j: the outputs of the commands addressed to it (41_parser.md R136). -/
def shownOn (j : BitVec 8) (cs : List Instr) (shown : List Shown) : List Shown :=
  ((cs.zip shown).filter fun x => x.1.link? == some j).map Prod.snd

/-- The link has written its `tlen`: its second header byte has come (10_state.md R25). -/
def Link.tlenWritten (l : Link) : Prop :=
  (l.phase = .header ∧ 2 ≤ l.hdr.length) ∨ l.phase = .payload ∨ l.phase = .checksum

/-- The link has written its `qid`: its third header byte has come (R25). -/
def Link.qidWritten (l : Link) : Prop := l.phase = .payload ∨ l.phase = .checksum

/-- The second link is the first but for a `tlen` or `qid` that the first has not written (R25). -/
def Link.alike (l l' : Link) : Prop :=
  l' = { l with tlen := l'.tlen, qid := l'.qid } ∧ (l.tlenWritten → l'.tlen = l.tlen) ∧ (l.qidWritten → l'.qid = l.qid)

/-- Bytes fed one after the other to a link record by a step of the caller's choice, with what each showed (R124, R137). -/
def feedLink (f : Link → Byte → LinkStep) : List Byte → Link → Link × List Shown
  | [], l => (l, [])
  | b :: bs, l => ((feedLink f bs (f l b).link).1, ((f l b).out, (f l b).note) :: (feedLink f bs (f l b).link).2)

/-- A link of an implementation that keeps a running CRC register in place of the `pre` and `hdr` bytes (10_state.md R33):
`crc` has taken every byte appended so far, `count` is how many header bytes have come and `low` the first of them. -/
structure CrcLink where
  phase : Phase
  crc : Half
  count : Nat
  low : Byte
  pay : List Byte
  cks : List Byte
  tlen : Half
  qid : Byte
  cd : Nat
deriving DecidableEq, Repr

/-- The running-CRC picture of a link (R33). -/
def CrcLink.of (l : Link) : CrcLink :=
  { phase := l.phase, crc := crc16 l.covered, count := l.hdr.length, low := l.hdr.getD 0 0#8, pay := l.pay, cks := l.cks,
    tlen := l.tlen, qid := l.qid, cd := l.cd }

/-- The return to IDLE of the running-CRC implementation. -/
def CrcLink.toIdle (c : CrcLink) : CrcLink :=
  { c with phase := .idle, crc := crcInit, count := 0, low := 0#8, pay := [], cks := [], tlen := 0#16, qid := 0#8 }

/-- RXB of the running-CRC implementation: it never looks at a stored preamble or header (R33). -/
def CrcLink.rxb (p : Params) (k : BitVec 8) (c : CrcLink) (b : Byte) : CrcLink × Shown :=
  let next := crcu c.crc b
  let r : CrcLink × Shown :=
    match c.phase with
    | .idle => if b = p.p0 then ({ c with phase := .syncing, crc := next }, silent) else (c, (none, some .noise))
    | .syncing => if b = p.p1 then ({ c with phase := .header, crc := next }, silent) else (c.toIdle, (none, some .sync))
    | .header =>
      if c.count = 0 then ({ c with crc := next, count := 1, low := b }, silent)
      else if c.count = 1 then
        if (fromLe16 c.low b).toNat ≤ overhead then (c.toIdle, (none, some .lenSmall))
        else if p.maxTotal < (fromLe16 c.low b).toNat then (c.toIdle, (none, some .lenLarge))
        else ({ c with crc := next, count := 2, tlen := fromLe16 c.low b }, silent)
      else ({ c with phase := .payload, crc := next, count := 3, qid := b }, silent)
    | .payload =>
      if c.pay.length + 1 + overhead = c.tlen.toNat then
        ({ c with phase := .checksum, crc := next, pay := c.pay ++ [b] }, silent)
      else ({ c with crc := next, pay := c.pay ++ [b] }, silent)
    | .checksum =>
      if c.cks = [] then ({ c with cks := [b] }, silent)
      else if c.cks ++ [b] = le16 c.crc then (c.toIdle, (some (.deliver k c.qid c.pay), none))
      else (c.toIdle, (none, some .crc))
  ({ r.1 with cd := p.timeout }, r.2)

/-- TICK of the running-CRC implementation: a timeout drop restarts the running register too. -/
def CrcLink.tick (c : CrcLink) : CrcLink × Shown :=
  if c.cd = 0 then (c, silent)
  else if c.cd = 1 then
    ({ c.toIdle with cd := 0 }, if c.phase = .idle then silent else (none, some .timeout))
  else ({ c with cd := c.cd - 1 }, silent)

/-- LRESET of the running-CRC implementation. -/
def CrcLink.lreset (c : CrcLink) : CrcLink × Shown := ({ c.toIdle with cd := 0 }, silent)

/-- A command on link k of the running-CRC implementation; CRCU, CRC and BUILD are on no link. -/
def CrcLink.command (p : Params) (k : BitVec 8) (c : CrcLink) : Instr → CrcLink × Shown
  | .lreset _ => c.lreset
  | .tick _ => c.tick
  | .rxb _ b => c.rxb p k b
  | .crcu _ _ => (c, silent)
  | .crc => (c, silent)
  | .build _ => (c, silent)

/-- Commands on link k of the running-CRC implementation, one after the other, with what each showed. -/
def CrcLink.run (p : Params) (k : BitVec 8) : List Instr → CrcLink → CrcLink × List Shown
  | [], c => (c, [])
  | i :: is, c =>
    ((CrcLink.run p k is (c.command p k i).1).1, (c.command p k i).2 :: (CrcLink.run p k is (c.command p k i).1).2)

end Sys2Proof.Machine
end

