-- ==== Sys2Proof/Certificates/Slice0/Obligations.lean ====
section
/-!
DEFINITION. The statements for the provers, each made from the numbered rules its docstring names.
-/

open Sys2Proof Sys2Proof.Machine

/-! ### Encoding (30_encoding.md) -/

/-- Words of 95_test_vectors.md section 2.1, decoded for two links (R72 to R75). -/
def Obligations.DecodeSampleWords : Prop :=
  decode 2 0x10100000#32 = .ok (.lreset 1#8) ∧
  decode 2 0x20100000#32 = .ok (.tick 1#8) ∧
  decode 2 0x301000AA#32 = .ok (.rxb 1#8 0xAA#8) ∧
  decode 2 0x40FFFF00#32 = .ok (.crcu 0xFFFF#16 0x00#8) ∧
  decode 2 0x50000000#32 = .ok .crc ∧
  decode 2 0x6000FF00#32 = .ok (.build 0xFF#8) ∧
  decode 2 0x10000001#32 = .error .reserved ∧
  decode 2 0x70000000#32 = .error .reserved ∧
  decode 2 0x10200000#32 = .error .noLink

/-- Decoding the word of a command of the instance gives that command back, every operand at every value (R71, R73). -/
def Obligations.DecodeOfEncode : Prop :=
  ∀ (n : Nat) (i : Instr), WellFormed n i = true → decode n (encode i) = .ok i

/-- A word has at most the one meaning the encoder writes, and what decodes is a command of the instance (R73). -/
def Obligations.EncodeOfDecode : Prop :=
  ∀ (n : Nat) (w : Word) (i : Instr), decode n w = .ok i → encode i = w ∧ WellFormed n i = true

/-- Match and mask of every row of the opcode map, with the fields R73 takes from the word (R72). -/
def Obligations.DecodeByMatchAndMask : Prop :=
  ∀ w : Word,
    (decodeWord w = .ok (.lreset (w.extractLsb' 20 8)) ↔ w &&& 0xF00FFFFF#32 = 0x10000000#32) ∧
    (decodeWord w = .ok (.tick (w.extractLsb' 20 8)) ↔ w &&& 0xF00FFFFF#32 = 0x20000000#32) ∧
    (decodeWord w = .ok (.rxb (w.extractLsb' 20 8) (w.extractLsb' 0 8)) ↔ w &&& 0xF00FFF00#32 = 0x30000000#32) ∧
    (decodeWord w = .ok (.crcu (w.extractLsb' 8 16) (w.extractLsb' 0 8)) ↔ w &&& 0xFF000000#32 = 0x40000000#32) ∧
    (decodeWord w = .ok .crc ↔ w &&& 0xFFFFFFFF#32 = 0x50000000#32) ∧
    (decodeWord w = .ok (.build (w.extractLsb' 8 8)) ↔ w &&& 0xFFFF00FF#32 = 0x60000000#32)

/-- Opcodes 0x0 and 0x7 to 0xF and words with a must-be-zero field that is not zero are the reserved words, and a step
on one is refused (R74, with the field positions of R71). -/
def Obligations.ReservedWordsRefused : Prop :=
  ∀ w : Word,
    ((∀ n, decode n w = .error .reserved) ↔
      w.extractLsb' 28 4 = 0#4 ∨ 7 ≤ (w.extractLsb' 28 4).toNat ∨
      ((w.extractLsb' 28 4 = 1#4 ∨ w.extractLsb' 28 4 = 2#4) ∧ w.extractLsb' 0 20 ≠ 0#20) ∨
      (w.extractLsb' 28 4 = 3#4 ∧ w.extractLsb' 8 12 ≠ 0#12) ∨
      (w.extractLsb' 28 4 = 4#4 ∧ w.extractLsb' 24 4 ≠ 0#4) ∨
      (w.extractLsb' 28 4 = 5#4 ∧ w.extractLsb' 0 28 ≠ 0#28) ∨
      (w.extractLsb' 28 4 = 6#4 ∧ (w.extractLsb' 16 12 ≠ 0#12 ∨ w.extractLsb' 0 8 ≠ 0#8))) ∧
    (∀ (s : State) (q : List Byte) (rest : List Command),
      s.params.ok = true → s.pending = { word := w, seq := q } :: rest → (∀ n, decode n w = .error .reserved) →
        step s = .refused .reserved)

/-- A format-L word whose link field is at least NUM_LINKS names no link: it decodes to NO_LINK and nothing else does, and
a step on it is refused (R75). -/
def Obligations.NoLinkWordsRefused : Prop :=
  ∀ (n : Nat) (w : Word),
    (decode n w = .error .noLink ↔
      n ≤ (w.extractLsb' 20 8).toNat ∧
        (w &&& 0xF00FFFFF#32 = 0x10000000#32 ∨ w &&& 0xF00FFFFF#32 = 0x20000000#32 ∨
          w &&& 0xF00FFF00#32 = 0x30000000#32)) ∧
    (∀ (s : State) (q : List Byte) (rest : List Command),
      s.params.ok = true → s.params.numLinks = n → s.pending = { word := w, seq := q } :: rest →
        decode n w = .error .noLink → step s = .refused .noLink)

/-- The pseudo-commands stand for RXBs in order, a TICK before them, and copies of TICK; each command's word decodes to it on
an instance that has the link (R80). -/
def Obligations.PseudoCommandsExpand : Prop :=
  ∀ (n : Nat) (k : BitVec 8) (bytes : List Byte) (m : Nat), k.toNat < n →
    ((Asm.rxs k bytes).commands.map fun c => decode n c.word) = (bytes.map fun b => .ok (.rxb k b)) ∧
    ((Asm.cycle k bytes).commands.map fun c => decode n c.word) = .ok (.tick k) :: (bytes.map fun b => .ok (.rxb k b)) ∧
    ((Asm.wait k m).commands.map fun c => decode n c.word) = List.replicate m (.ok (.tick k))

/-! ### The step (00_scope.md, 60_exceptions.md) -/

/-- A step on an instance that meets its constraints takes the next command from the host, puts its sequence on the
sequence port and does what the decoded command does (R10, R70). The list of commands to come is the model's (log 3). -/
def Obligations.StepRunsDecodedCommand : Prop :=
  ∀ (s : State) (c : Command) (rest : List Command) (i : Instr),
    s.params.ok = true → s.pending = c :: rest → decode s.params.numLinks c.word = .ok i →
      step s = exec i { s with pending := rest, seq := c.seq }

/-- Without a command the block stays as it is and shows nothing (R194; the model's step, log 4). -/
def Obligations.StepWithoutCommandIdles : Prop :=
  ∀ s : State, s.params.ok = true → s.pending = [] → step s = .next { s with out := none, note := none }

/-- An instance is refused exactly when its parameters break a constraint of R6. -/
def Obligations.BadInstanceRefusedExactly : Prop :=
  ∀ s : State, step s = .refused .badInstance ↔
    ¬(10 ≤ s.params.maxPacket ∧ 1 ≤ s.params.timeout ∧ 1 ≤ s.params.numLinks ∧ s.params.numLinks ≤ 256)

/-- Commands take effect in issue order, each as one step: as many steps as commands are pending do what the commands do
one after the other, each on the sequence presented with it; where all present the sequence that stands on the port, that
is doing the commands alone (R47; the list of commands to come is the model's, log 3). -/
def Obligations.PendingCommandsRunInOrder : Prop :=
  (∀ (s : State) (cs : List (Instr × List Byte)) (rest : List Command),
    s.params.ok = true → (∀ c ∈ cs, WellFormed s.params.numLinks c.1 = true) →
    s.pending = cs.map (fun c => { word := encode c.1, seq := c.2 }) ++ rest →
      stepAll cs.length s = doPresented cs { s with pending := rest }) ∧
  (∀ (s : State) (is : List Instr) (rest : List Command),
    s.params.ok = true → (∀ i ∈ is, WellFormed s.params.numLinks i = true) →
    s.pending = is.map (fun i => { word := encode i, seq := s.seq }) ++ rest →
      stepAll is.length s = doAll is { s with pending := rest })

/-! ### Reset (70_reset_and_hazards.md) -/

/-- Power-on reset: NUM_LINKS links, each with the values of R28, and no event (R200). -/
def Obligations.PowerOnLeavesLinksReset : Prop :=
  ∀ p : Params,
    (State.powerOn p).params = p ∧ (State.powerOn p).out = none ∧
    (∀ k : Nat, (State.powerOn p).links[k]? =
      if k < p.numLinks then
        some { phase := .idle, pre := [], hdr := [], pay := [], cks := [], tlen := 0#16, qid := 0#8, cd := 0 }
      else none)

/-- The invariant of R24 holds after power-on reset of every instance that meets its constraints. -/
def Obligations.PowerOnMeetsReachableStates : Prop :=
  ∀ p : Params, p.ok = true → (State.powerOn p).Inv

/-! ### Checksum Engine (40_checksum.md) -/

/-- CRCU's result, with the table entry given by R100's generator (general knowledge G1 and G2; PRESUMED, log 10); it depends
on `c` and `b` only as R101 says; no state is written (R31). -/
def Obligations.CrcuGivesTableUpdate : Prop :=
  (∀ (c : Half) (b : Byte) (s : State),
    exec (.crcu c b) s = .next { s with
      out := some (.crcOut ((c >>> 8) ^^^ generator (((c ^^^ b.setWidth 16) &&& 0xFF#16).setWidth 8)))
      note := none }) ∧
  (∀ (c : Half) (b x : Byte), crcu (c ^^^ x.setWidth 16) (b ^^^ x) = crcu c b) ∧
  crcu 0x0000#16 0x00#8 = 0x0000#16 ∧ crcu 0xFFFF#16 0x00#8 = 0x40BF#16

/-- CRC's result: the fold of R101's update over the sequence from 0xFFFF, with no final step (general knowledge G1 to G4;
PRESUMED, logs 10 and 11); the empty sequence, the
concatenation law and the example of R102; no state is written. -/
def Obligations.CrcFoldsSequence : Prop :=
  (∀ s : State, s.seq.length ≤ 65535 →
    exec .crc s = .next { s with
      out := some (.crcOut (s.seq.foldl
        (fun c b => (c >>> 8) ^^^ generator (((c ^^^ b.setWidth 16) &&& 0xFF#16).setWidth 8)) 0xFFFF#16))
      note := none }) ∧
  (∀ s : State, s.seq = [] → exec .crc s = .next { s with out := some (.crcOut 0xFFFF#16), note := none }) ∧
  (∀ a b : List Byte, crc16 (a ++ b) = b.foldl crcu (crc16 a)) ∧
  crc16 [0x31#8, 0x32#8, 0x33#8, 0x34#8, 0x35#8, 0x36#8, 0x37#8, 0x38#8, 0x39#8] = 0x4B37#16

/-- A sequence longer than 65535 bytes cannot be presented: CRC and BUILD are refused on one (R76; the refusal is the
model's, log 9). -/
def Obligations.OverlongSequenceRefused : Prop :=
  ∀ (s : State) (q : Byte), 65535 < s.seq.length →
    exec .crc s = .refused .sequenceTooLong ∧ exec (.build q) s = .refused .sequenceTooLong

/-- CRCU, CRC and BUILD hold no state between commands: whatever they answer, only the result port and the trace change, and
the result is the same wherever the parameters and the sequence are, whatever the links hold (R31). -/
def Obligations.EngineCommandsHoldNoState : Prop :=
  ∀ (s s' t : State) (i : Instr), i.link? = none → exec i s = .next t →
    (t.params = s.params ∧ t.links = s.links ∧ t.pending = s.pending ∧ t.seq = s.seq ∧ t.note = none ∧
      t.out.isSome = true) ∧
    (s'.params = s.params → s'.seq = s.seq → exec i s' = .next { s' with out := t.out, note := none })

/-- Single-bit errors (R106; general knowledge G5, and the table of log 10). A bit changed in the covered bytes changes the
CRC; a link that holds such bytes and receives the CRC of the original ones drops the frame; so does a link whose CRC field
has a bit changed. -/
def Obligations.SingleBitErrorsDropped : Prop :=
  (∀ (m : List Byte) (i j : Nat), i < m.length → j < 8 →
    crc16 (m.set i (m.getD i 0#8 ^^^ (1#8 <<< j))) ≠ crc16 m) ∧
  (∀ (s : State) (k : BitVec 8) (l : Link) (m : List Byte) (i j : Nat),
    k.toNat < s.params.numLinks → s.links[k.toNat]? = some l → l.phase = .checksum → i < m.length → j < 8 →
    l.pre ++ l.hdr ++ l.pay = m.set i (m.getD i 0#8 ^^^ (1#8 <<< j)) → l.cks = [lo (crc16 m)] →
      exec (.rxb k (hi (crc16 m))) s = .next { s with
        links := s.links.set k.toNat (Link.idleWith s.params.timeout), out := none, note := some .crc }) ∧
  (∀ (s : State) (k : BitVec 8) (l : Link) (v : Half) (j : Nat),
    k.toNat < s.params.numLinks → s.links[k.toNat]? = some l → l.phase = .checksum → j < 16 →
    v = crc16 (l.pre ++ l.hdr ++ l.pay) ^^^ (1#16 <<< j) → l.cks = [lo v] →
      exec (.rxb k (hi v)) s = .next { s with
        links := s.links.set k.toNat (Link.idleWith s.params.timeout), out := none, note := some .crc })

/-! ### Frame Parser (41_parser.md) -/

/-- LRESET puts link k in its reset state, whatever it held, emits and annotates nothing, and doing it again changes nothing;
its words are those of its match and mask (R122). -/
def Obligations.LresetResetsLink : Prop :=
  (∀ w : Word, decodeWord w = .ok (.lreset (w.extractLsb' 20 8)) ↔ w &&& 0xF00FFFFF#32 = 0x10000000#32) ∧
  (∀ (s : State) (k : BitVec 8) (l : Link), k.toNat < s.params.numLinks → s.links[k.toNat]? = some l →
    ∃ t : State,
      t = { s with
        links := s.links.set k.toNat
          { phase := .idle, pre := [], hdr := [], pay := [], cks := [], tlen := 0#16, qid := 0#8, cd := 0 }
        out := none
        note := none } ∧
      exec (.lreset k) s = .next t ∧ exec (.lreset k) t = .next t)

/-- TICK: nothing at 0; one less above 1; from 1 to 0 the return to IDLE, annotated TIMEOUT unless the link was IDLE; its
words are those of its match and mask (R123). -/
def Obligations.TickCountsDown : Prop :=
  (∀ w : Word, decodeWord w = .ok (.tick (w.extractLsb' 20 8)) ↔ w &&& 0xF00FFFFF#32 = 0x20000000#32) ∧
  (∀ (s : State) (k : BitVec 8) (l : Link), k.toNat < s.params.numLinks → s.links[k.toNat]? = some l →
    (l.cd = 0 → exec (.tick k) s = .next { s with out := none, note := none }) ∧
    (2 ≤ l.cd → exec (.tick k) s = .next { s with
      links := s.links.set k.toNat { l with cd := l.cd - 1 }, out := none, note := none }) ∧
    (l.cd = 1 → l.phase ≠ .idle → exec (.tick k) s = .next { s with
      links := s.links.set k.toNat (Link.idleWith 0), out := none, note := some .timeout }) ∧
    (l.cd = 1 → l.phase = .idle → exec (.tick k) s = .next { s with
      links := s.links.set k.toNat (Link.idleWith 0), out := none, note := none }))

/-- RXB in IDLE: P0 is stored and starts synchronisation, any other byte is noise (R125), and the countdown is restored
(R124). -/
def Obligations.RxbInIdle : Prop :=
  ∀ (s : State) (k : BitVec 8) (b : Byte) (l : Link),
    k.toNat < s.params.numLinks → s.links[k.toNat]? = some l → l.phase = .idle →
    (b = s.params.p0 → exec (.rxb k b) s = .next { s with
      links := s.links.set k.toNat { l with pre := [b], phase := .syncing, cd := s.params.timeout }
      out := none
      note := none }) ∧
    (b ≠ s.params.p0 → exec (.rxb k b) s = .next { s with
      links := s.links.set k.toNat { l with cd := s.params.timeout }, out := none, note := some .noise })

/-- RXB in SYNCING: the second preamble byte completes the preamble, or the link drops SYNC (R126). -/
def Obligations.RxbInSyncing : Prop :=
  ∀ (s : State) (k : BitVec 8) (b : Byte) (l : Link),
    k.toNat < s.params.numLinks → s.links[k.toNat]? = some l → l.phase = .syncing →
    (l.pre ++ [b] = [s.params.p0, s.params.p1] → exec (.rxb k b) s = .next { s with
      links := s.links.set k.toNat
        { l with pre := [s.params.p0, s.params.p1], phase := .header, cd := s.params.timeout }
      out := none
      note := none }) ∧
    (l.pre.length = 1 → l.pre ++ [b] ≠ [s.params.p0, s.params.p1] → exec (.rxb k b) s = .next { s with
      links := s.links.set k.toNat (Link.idleWith s.params.timeout), out := none, note := some .sync })

/-- RXB in HEADER (R127): the first byte is only appended; the second completes the little-endian length and drops what is at
most 7 or above MAX_PACKET - 2; the third is the queue-id. -/
def Obligations.RxbInHeader : Prop :=
  ∀ (s : State) (k : BitVec 8) (b : Byte) (l : Link),
    k.toNat < s.params.numLinks → s.links[k.toNat]? = some l → l.phase = .header →
    (∀ a : Byte, l.hdr = [a] → a.toNat + 256 * b.toNat ≤ 7 → exec (.rxb k b) s = .next { s with
      links := s.links.set k.toNat (Link.idleWith s.params.timeout), out := none, note := some .lenSmall }) ∧
    (∀ a : Byte, l.hdr = [a] → 7 < a.toNat + 256 * b.toNat → s.params.maxPacket - 2 < a.toNat + 256 * b.toNat →
      exec (.rxb k b) s = .next { s with
        links := s.links.set k.toNat (Link.idleWith s.params.timeout), out := none, note := some .lenLarge }) ∧
    (∀ a : Byte, l.hdr = [a] → 7 < a.toNat + 256 * b.toNat → a.toNat + 256 * b.toNat ≤ s.params.maxPacket - 2 →
      exec (.rxb k b) s = .next { s with
        links := s.links.set k.toNat
          { l with hdr := [a, b], tlen := BitVec.ofNat 16 (a.toNat + 256 * b.toNat), cd := s.params.timeout }
        out := none
        note := none }) ∧
    (l.hdr.length = 2 → exec (.rxb k b) s = .next { s with
      links := s.links.set k.toNat
        { l with hdr := l.hdr ++ [b], qid := b, phase := .payload, cd := s.params.timeout }
      out := none
      note := none }) ∧
    (l.hdr = [] → exec (.rxb k b) s = .next { s with
      links := s.links.set k.toNat { l with hdr := [b], cd := s.params.timeout }, out := none, note := none })

/-- RXB in PAYLOAD with `tlen > OVERHEAD` (R128; every reachable PAYLOAD state by R24): the byte is data, whatever its value,
and the last of `tlen - OVERHEAD` moves the link to CHECKSUM. -/
def Obligations.RxbInPayload : Prop :=
  ∀ (s : State) (k : BitVec 8) (b : Byte) (l : Link),
    k.toNat < s.params.numLinks → s.links[k.toNat]? = some l → l.phase = .payload → 7 < l.tlen.toNat →
    (l.pay.length + 1 = l.tlen.toNat - 7 → exec (.rxb k b) s = .next { s with
      links := s.links.set k.toNat { l with pay := l.pay ++ [b], phase := .checksum, cd := s.params.timeout }
      out := none
      note := none }) ∧
    (l.pay.length + 1 ≠ l.tlen.toNat - 7 → exec (.rxb k b) s = .next { s with
      links := s.links.set k.toNat { l with pay := l.pay ++ [b], cd := s.params.timeout }, out := none, note := none })

/-- RXB in PAYLOAD with `tlen <= OVERHEAD` is refused: the spec gives it no value and no run reaches it
(93_implementation_defined.md I6; the refusal is the model's, log 8). -/
def Obligations.RxbRefusesUndefinedPayload : Prop :=
  ∀ (s : State) (k : BitVec 8) (b : Byte) (l : Link),
    k.toNat < s.params.numLinks → s.links[k.toNat]? = some l → l.phase = .payload →
    (l.tlen.toNat ≤ 7 ↔ exec (.rxb k b) s = .refused .payloadLength)

/-- RXB in CHECKSUM (R129, R130): the first byte is only appended; the second completes the little-endian CRC of preamble,
header and payload, and the frame is delivered, or dropped. -/
def Obligations.RxbInChecksum : Prop :=
  ∀ (s : State) (k : BitVec 8) (b : Byte) (l : Link),
    k.toNat < s.params.numLinks → s.links[k.toNat]? = some l → l.phase = .checksum →
    (∀ a : Byte, l.cks = [a] → a.toNat + 256 * b.toNat = (crc16 (l.pre ++ l.hdr ++ l.pay)).toNat →
      exec (.rxb k b) s = .next { s with
        links := s.links.set k.toNat (Link.idleWith s.params.timeout)
        out := some (.deliver k l.qid l.pay)
        note := none }) ∧
    (∀ a : Byte, l.cks = [a] → a.toNat + 256 * b.toNat ≠ (crc16 (l.pre ++ l.hdr ++ l.pay)).toNat →
      exec (.rxb k b) s = .next { s with
        links := s.links.set k.toNat (Link.idleWith s.params.timeout), out := none, note := some .crc }) ∧
    (l.cks = [] → exec (.rxb k b) s = .next { s with
      links := s.links.set k.toNat { l with cks := [b], cd := s.params.timeout }, out := none, note := none })

/-- In states that no run reaches the pseudocode of R126, R127 and R129 is followed as it is written, which is the model's
reading (DEDUCED, log 17): in SYNCING with a preamble buffer that does not come to two bytes, in HEADER with three or more
bytes and in CHECKSUM with two or more, RXB only appends the byte and restores the countdown. -/
def Obligations.UnreachableBuffersOnlyGrow : Prop :=
  ∀ (s : State) (k : BitVec 8) (b : Byte) (l : Link),
    k.toNat < s.params.numLinks → s.links[k.toNat]? = some l →
    (l.phase = .syncing → l.pre.length ≠ 1 → exec (.rxb k b) s = .next { s with
      links := s.links.set k.toNat { l with pre := l.pre ++ [b], cd := s.params.timeout }, out := none, note := none }) ∧
    (l.phase = .header → 3 ≤ l.hdr.length → exec (.rxb k b) s = .next { s with
      links := s.links.set k.toNat { l with hdr := l.hdr ++ [b], cd := s.params.timeout }, out := none, note := none }) ∧
    (l.phase = .checksum → 2 ≤ l.cks.length → exec (.rxb k b) s = .next { s with
      links := s.links.set k.toNat { l with cks := l.cks ++ [b], cd := s.params.timeout }, out := none, note := none })

/-- Every byte, in every phase, restores the countdown to TIMEOUT (R124). -/
def Obligations.EveryByteRestoresCountdown : Prop :=
  ∀ (s t : State) (k : BitVec 8) (b : Byte), exec (.rxb k b) s = .next t →
    ∃ l : Link, t.links[k.toNat]? = some l ∧ l.cd = s.params.timeout

/-- A command on a link index that is at least NUM_LINKS is refused (R75). -/
def Obligations.LinkCommandsRefuseNoLink : Prop :=
  ∀ (s : State) (k : BitVec 8) (b : Byte), s.params.numLinks ≤ k.toNat →
    exec (.lreset k) s = .refused .noLink ∧ exec (.tick k) s = .refused .noLink ∧ exec (.rxb k b) s = .refused .noLink

/-- Links share no state: a command on link k writes only `L[k]` and what the step shows, and reads only `L[k]` (what it
writes and shows is the same wherever `L[k]` and the parameters are); a command on no link writes no link (R23, R120). -/
def Obligations.LinkCommandsTouchOneLink : Prop :=
  (∀ (s t : State) (i : Instr) (k : BitVec 8), i.link? = some k → exec i s = .next t →
    (t.params = s.params ∧ t.pending = s.pending ∧ t.seq = s.seq ∧ t.links.length = s.links.length ∧
      (∀ j : Nat, j ≠ k.toNat → t.links[j]? = s.links[j]?)) ∧
    (∀ s' : State, s'.params = s.params → s'.links[k.toNat]? = s.links[k.toNat]? →
      ∃ t' : State, exec i s' = .next t' ∧ t'.links[k.toNat]? = t.links[k.toNat]? ∧ t'.out = t.out ∧ t'.note = t.note)) ∧
  (∀ (s t : State) (i : Instr), i.link? = none → exec i s = .next t → t.links = s.links)

/-- In every state of R24's table every command of the instance completes: nothing is refused and nothing faults (R51, R180).
-/
def Obligations.EveryCommandCompletes : Prop :=
  ∀ (s : State) (i : Instr), s.Inv → WellFormed s.params.numLinks i = true → s.seq.length ≤ 65535 →
    ∃ t : State, exec i s = .next t

/-- Every step keeps the invariant of R24, from every state that has it. -/
def Obligations.StepKeepsReachableStates : Prop :=
  ∀ s t : State, s.Inv → step s = .next t → t.Inv

/-- No step takes a buffer over its capacity: preamble 2, header 3, payload MAX_PACKET - 9, checksum 2 bytes (R30). -/
def Obligations.BuffersStayInCapacity : Prop :=
  ∀ s t : State, s.Inv → step s = .next t → ∀ l ∈ t.links,
    l.pre.length ≤ 2 ∧ l.hdr.length ≤ 3 ∧ l.pay.length ≤ t.params.maxPacket - 9 ∧ l.cks.length ≤ 2

/-- A link's phase stays, moves to the next, or returns to IDLE (R24). -/
def Obligations.PhaseStaysAdvancesOrReturns : Prop :=
  ∀ (s t : State) (i : Instr) (k : Nat) (l l' : Link), exec i s = .next t →
    s.links[k]? = some l → t.links[k]? = some l' →
    l'.phase = l.phase ∨ l'.phase = .idle ∨
      (l.phase = .idle ∧ l'.phase = .syncing) ∨ (l.phase = .syncing ∧ l'.phase = .header) ∨
      (l.phase = .header ∧ l'.phase = .payload) ∨ (l.phase = .payload ∧ l'.phase = .checksum)

/-- A link's only output is its delivery: the step that shows one is the RXB that completes a valid frame, with the link in
CHECKSUM and its two checksum bytes the CRC; the event carries the link index, the queue-id and the payload, and the link is
IDLE in the state after. From a state of R24's table the payload has 1 to MAX_PACKET - 9 bytes (R130). -/
def Obligations.DeliveryOnlyByCompletingByte : Prop :=
  ∀ (s t : State) (i : Instr) (k : BitVec 8), i.link? = some k → exec i s = .next t →
    t.out = none ∨
    ∃ (b : Byte) (l : Link), t.out = some (.deliver k l.qid l.pay) ∧ i = .rxb k b ∧ s.links[k.toNat]? = some l ∧
      l.phase = .checksum ∧ l.cks ++ [b] = le16 (crc16 (l.pre ++ l.hdr ++ l.pay)) ∧
      t.links[k.toNat]? = some (Link.idleWith s.params.timeout) ∧
      (s.Inv → 1 ≤ l.pay.length ∧ l.pay.length ≤ s.params.maxPacket - 9)

/-- Every drop annotation has the cause R181 gives it: the phase, the byte of its field that caused it, and its effect. -/
def Obligations.DropsHaveTheirCauses : Prop :=
  ∀ (s t : State) (i : Instr) (r : Drop), exec i s = .next t → t.note = some r →
    ∃ (k : BitVec 8) (l : Link), s.links[k.toNat]? = some l ∧ t.out = none ∧
      match r with
      | .noise => ∃ b, i = .rxb k b ∧ l.phase = .idle ∧ b ≠ s.params.p0 ∧
          t.links[k.toNat]? = some { l with cd := s.params.timeout }
      | .sync => ∃ b, i = .rxb k b ∧ l.phase = .syncing ∧ l.pre.length = 1 ∧
          l.pre ++ [b] ≠ [s.params.p0, s.params.p1] ∧
          t.links[k.toNat]? = some (Link.idleWith s.params.timeout)
      | .lenSmall => ∃ a b, i = .rxb k b ∧ l.phase = .header ∧ l.hdr = [a] ∧ a.toNat + 256 * b.toNat ≤ 7 ∧
          t.links[k.toNat]? = some (Link.idleWith s.params.timeout)
      | .lenLarge => ∃ a b, i = .rxb k b ∧ l.phase = .header ∧ l.hdr = [a] ∧
          s.params.maxPacket - 2 < a.toNat + 256 * b.toNat ∧
          t.links[k.toNat]? = some (Link.idleWith s.params.timeout)
      | .crc => ∃ b, i = .rxb k b ∧ l.phase = .checksum ∧ l.cks.length = 1 ∧
          l.cks ++ [b] ≠ le16 (crc16 (l.pre ++ l.hdr ++ l.pay)) ∧
          t.links[k.toNat]? = some (Link.idleWith s.params.timeout)
      | .timeout => i = .tick k ∧ l.cd = 1 ∧ l.phase ≠ .idle ∧ t.links[k.toNat]? = some (Link.idleWith 0)

/-- The two tests of the HEADER arm may be evaluated in either order (R133). -/
def Obligations.HeaderTestsCommute : Prop :=
  ∀ (p : Params) (l : Link) (b : Byte), l.phase = .header →
    l.rxbHeader p b = ({ l with hdr := l.hdr ++ [b] }.headerQid b).headerLength p

/-- `tlen` and `qid` are never read before they are written: a link of R24's table and one that differs from it only in those
it has not written show the same on every byte and every tick, and stay alike (R25). -/
def Obligations.UnwrittenFieldsUnobservable : Prop :=
  ∀ (p : Params) (k : BitVec 8) (l l' : Link) (b : Byte), l.Inv p → l.alike l' →
    (∃ r r' : LinkStep, l.rxb p k b = .next r ∧ l'.rxb p k b = .next r' ∧
      r'.out = r.out ∧ r'.note = r.note ∧ r.link.alike r'.link) ∧
    l'.tick.out = l.tick.out ∧ l'.tick.note = l.tick.note ∧ l.tick.link.alike l'.tick.link

/-- The countdown of an IDLE link is unobservable: whatever its value, the same commands show the same (R28). -/
def Obligations.IdleCountdownUnobservable : Prop :=
  ∀ (s t t' : State) (k : BitVec 8) (c c' : Nat) (is : List Instr) (shown shown' : List Shown),
    s.links[k.toNat]? = some (Link.idleWith c) → doAll is s = some (t, shown) →
    doAll is { s with links := s.links.set k.toNat (Link.idleWith c') } = some (t', shown') →
      shown' = shown

/-! ### Frames and byte streams (30_encoding.md R60 to R63, 41_parser.md R132 to R137) -/

/-- An accepted frame fed to an IDLE link, with fewer than TIMEOUT ticks before each byte but the first, shows nothing
before its last byte, delivers its queue-id and payload on that byte, and leaves the link IDLE (R62 (a), R131, R207). -/
def Obligations.AcceptedFrameDelivered : Prop :=
  ∀ (s : State) (k : BitVec 8) (l : Link) (f : List (Nat × Byte)) (q : Byte) (pay : List Byte),
    s.Inv → k.toNat < s.params.numLinks → s.links[k.toNat]? = some l → l.phase = .idle →
    Accepted s.params (f.map Prod.snd) q pay → gapsShort s.params f →
      doAll (feedWithTicks k f) s = some
        ({ s with
            links := s.links.set k.toNat (Link.idleWith s.params.timeout)
            out := some (.deliver k q pay)
            note := none },
          List.replicate ((feedWithTicks k f).length - 1) silent ++ [(some (.deliver k q pay), none)])

/-- A beginning of a frame, short of its declared length, shows nothing and leaves the link in the phase its length says,
holding exactly its bytes (R62 (b), case `len(f) < tlen`). -/
def Obligations.TruncatedFrameStaysSilent : Prop :=
  ∀ (s : State) (k : BitVec 8) (l : Link) (f : List Byte),
    s.Inv → k.toNat < s.params.numLinks → s.links[k.toNat]? = some l → l.phase = .idle →
    0 < f.length → f.getD 0 0#8 = s.params.p0 → (1 < f.length → f.getD 1 0#8 = s.params.p1) →
    (3 < f.length → 7 < frameLength f ∧ frameLength f ≤ s.params.maxPacket - 2 ∧ f.length < frameLength f) →
      ∃ (t : State) (l' : Link),
        doAll (feed k f) s = some (t, List.replicate f.length silent) ∧ t.links[k.toNat]? = some l' ∧
        l'.pre ++ l'.hdr ++ l'.pay ++ l'.cks = f ∧
        l'.phase = (if f.length = 1 then .syncing else if f.length ≤ 4 then .header
          else if f.length + 2 < frameLength f then .payload else .checksum)

/-- A second byte other than P1 drops SYNC and is consumed by the drop, even when it equals P0: the next byte is examined
in IDLE (R126, R132, R62 (b)). -/
def Obligations.BadPreambleDropped : Prop :=
  ∀ (s : State) (k : BitVec 8) (l : Link) (b : Byte),
    s.Inv → k.toNat < s.params.numLinks → s.links[k.toNat]? = some l → l.phase = .idle → b ≠ s.params.p1 →
      doAll (feed k [s.params.p0, b]) s = some
        ({ s with links := s.links.set k.toNat (Link.idleWith s.params.timeout), out := none, note := some .sync },
          [silent, (none, some .sync)])

/-- After a SYNC drop the bytes that follow are parsed from IDLE, the two bytes of the failed synchronisation never again
(R132). -/
def Obligations.NoRescanAfterSyncDrop : Prop :=
  ∀ (s : State) (k : BitVec 8) (l : Link) (b : Byte) (rest : List Byte),
    s.Inv → k.toNat < s.params.numLinks → s.links[k.toNat]? = some l → l.phase = .idle → b ≠ s.params.p1 →
      doAll (feed k (s.params.p0 :: b :: rest)) s =
        (doAll (feed k rest)
          { s with links := s.links.set k.toNat (Link.idleWith s.params.timeout), out := none, note := some .sync }).map
          fun r => (r.1, silent :: (none, some .sync) :: r.2)

/-- A declared length of at most 7 drops LEN_SMALL and one above MAX_PACKET - 2 drops LEN_LARGE, on the byte at offset 3 (R63,
R62 (b)). -/
def Obligations.BadLengthDropped : Prop :=
  ∀ (s : State) (k : BitVec 8) (l : Link) (a b : Byte) (r : Drop),
    s.Inv → k.toNat < s.params.numLinks → s.links[k.toNat]? = some l → l.phase = .idle →
    ((a.toNat + 256 * b.toNat ≤ 7 ∧ r = .lenSmall) ∨
      (s.params.maxPacket - 2 < a.toNat + 256 * b.toNat ∧ r = .lenLarge)) →
      doAll (feed k [s.params.p0, s.params.p1, a, b]) s = some
        ({ s with links := s.links.set k.toNat (Link.idleWith s.params.timeout), out := none, note := some r },
          [silent, silent, silent, (none, some r)])

/-- A frame with a good head whose CRC field is not the CRC of its other bytes shows nothing before its last byte and drops
CRC on it (R62 (b), R63). -/
def Obligations.BadCrcDropped : Prop :=
  ∀ (s : State) (k : BitVec 8) (l : Link) (f : List Byte),
    s.Inv → k.toNat < s.params.numLinks → s.links[k.toNat]? = some l → l.phase = .idle →
    headOk s.params f → f.length = frameLength f →
    f.drop (f.length - 2) ≠ le16 (crc16 (f.take (f.length - 2))) →
      doAll (feed k f) s = some
        ({ s with links := s.links.set k.toNat (Link.idleWith s.params.timeout), out := none, note := some .crc },
          List.replicate (f.length - 1) silent ++ [(none, some .crc)])

/-- Nothing but accepted frames is delivered: where a run of any commands (a stream with ticks between its bytes, resets, and
commands on other links among them) from a state of R24's table with link k IDLE shows a delivery of link k, the bytes fed
to link k up to it end in an accepted frame with that queue-id and payload; the link was IDLE when the first byte of that
frame came, and no reset of it came after that byte (R134, R62; the spec's inference). -/
def Obligations.DeliveriesComeFromAcceptedFrames : Prop :=
  ∀ (s t : State) (k : BitVec 8) (l : Link) (is : List Instr) (shown : List Shown) (n : Nat) (q : Byte)
    (pay : List Byte) (r : Option Drop),
    s.Inv → s.links[k.toNat]? = some l → l.phase = .idle → doAll is s = some (t, shown) →
    shown[n]? = some (some (.deliver k q pay), r) →
      ∃ (before after : List Instr) (s1 : State) (shown1 : List Shown) (b : Byte) (l1 : Link),
        is.take (n + 1) = before ++ .rxb k b :: after ∧ .lreset k ∉ after ∧
        doAll before s = some (s1, shown1) ∧ s1.links[k.toNat]? = some l1 ∧ l1.phase = .idle ∧
        Accepted s.params (bytesTo k (.rxb k b :: after)) q pay

/-- TIMEOUT ticks without a byte leave a link of R24's table IDLE, whatever it was (R134). -/
def Obligations.SilenceReturnsToIdle : Prop :=
  ∀ (s : State) (k : BitVec 8), s.Inv → k.toNat < s.params.numLinks →
    ∃ (t : State) (shown : List Shown),
      doAll (List.replicate s.params.timeout (.tick k)) s = some (t, shown) ∧
      t.links[k.toNat]? = some (Link.idleWith 0)

/-- After a byte that leaves link k outside IDLE, TIMEOUT - 1 ticks leave the partial frame as it is, and the TIMEOUT-th drops
TIMEOUT and leaves the link IDLE (R135). -/
def Obligations.TimeoutAbandonsPartialFrame : Prop :=
  ∀ (s s1 : State) (k : BitVec 8) (b : Byte) (l : Link),
    s.Inv → exec (.rxb k b) s = .next s1 → s1.links[k.toNat]? = some l → l.phase ≠ .idle →
    (∃ t : State,
      doAll (List.replicate (s.params.timeout - 1) (.tick k)) s1 =
        some (t, List.replicate (s.params.timeout - 1) silent) ∧
      t.links = s1.links.set k.toNat { l with cd := 1 }) ∧
    (∃ t : State,
      doAll (List.replicate s.params.timeout (.tick k)) s1 =
        some (t, List.replicate (s.params.timeout - 1) silent ++ [(none, some .timeout)]) ∧
      t.links = s1.links.set k.toNat (Link.idleWith 0))

/-- What link j holds and shows is a function of the commands addressed to it alone: two runs with the same commands for j,
whatever else each does, agree on it (R136, which the spec infers from R120 and R23). -/
def Obligations.LinksAreIsolated : Prop :=
  ∀ (s s' t t' : State) (is is' : List Instr) (shown shown' : List Shown) (j : BitVec 8),
    s.params = s'.params → s.links[j.toNat]? = s'.links[j.toNat]? →
    is.filter (fun i => i.link? == some j) = is'.filter (fun i => i.link? == some j) →
    doAll is s = some (t, shown) → doAll is' s' = some (t', shown') →
      t.links[j.toNat]? = t'.links[j.toNat]? ∧ shownOn j is shown = shownOn j is' shown'

/-- In a cycle the tick comes first: a byte that arrives in the cycle whose tick expires the countdown is parsed from IDLE
(R185). -/
def Obligations.ExpiringCycleParsesFromIdle : Prop :=
  ∀ (s : State) (k : BitVec 8) (b : Byte) (l : Link),
    k.toNat < s.params.numLinks → s.links[k.toNat]? = some l → l.phase ≠ .idle → l.cd = 1 →
      doAll [.tick k, .rxb k b] s = some
        (if b = s.params.p0 then
          ({ s with
              links := s.links.set k.toNat
                { Link.idleWith s.params.timeout with phase := .syncing, pre := [b] }
              out := none
              note := none },
            [(none, some .timeout), silent])
        else
          ({ s with links := s.links.set k.toNat (Link.idleWith s.params.timeout), out := none, note := some .noise },
            [(none, some .timeout), (none, some .noise)]))

/-- Restoring the countdown once after the bytes of a cycle is the same as restoring it on every byte (R137). -/
def Obligations.RestorePerByteEqualsPerCycle : Prop :=
  ∀ (p : Params) (k : BitVec 8) (l : Link) (bytes : List Byte), bytes ≠ [] →
    { (feedLink (fun l b => l.rxbArm p k b) bytes l).1 with cd := p.timeout } =
      (feedLink (fun l b => (l.rxbArm p k b).restore p) bytes l).1 ∧
    (feedLink (fun l b => l.rxbArm p k b) bytes l).2 = (feedLink (fun l b => (l.rxbArm p k b).restore p) bytes l).2

/-- An implementation that keeps a running CRC register in place of the stored preamble and header emits what the rules emit
for the same commands (R33; the spec's inference). On every link of R24's table its RXB, TICK and LRESET show what those of
the rules show and keep the correspondence, and so does every run: from a state of R24's table, whatever the commands, it
shows on the commands addressed to link j what the block shows on them, and ends in the picture of link j. -/
def Obligations.RunningCrcImplementationEquivalent : Prop :=
  (∀ (p : Params) (k : BitVec 8) (l : Link) (b : Byte), l.Inv p →
    ∃ r : LinkStep, l.rxb p k b = .next r ∧
      (CrcLink.of l).rxb p k b = (CrcLink.of r.link, (r.out, r.note))) ∧
  (∀ (p : Params) (l : Link), l.Inv p →
    (CrcLink.of l).tick = (CrcLink.of l.tick.link, (l.tick.out, l.tick.note)) ∧
    (CrcLink.of l).lreset = (CrcLink.of l.lreset, silent)) ∧
  (∀ (s t : State) (j : BitVec 8) (l : Link) (is : List Instr) (shown : List Shown),
    s.Inv → s.links[j.toNat]? = some l → doAll is s = some (t, shown) →
      ∃ l' : Link, t.links[j.toNat]? = some l' ∧
        CrcLink.run s.params j (is.filter (fun i => i.link? == some j)) (CrcLink.of l) =
          (CrcLink.of l', shownOn j is shown))

/-! ### Packet Builder (42_builder.md) -/

/-- BUILD (R160): a payload within the bounds gives the frame of preamble, total length low byte first, queue-id, payload, and
the CRC of all of them low byte first; outside them the rejection, tested in the order EMPTY, WIDTH, TOO_LARGE; no state is
written; its words are those of its match and mask. -/
def Obligations.BuildGivesFrameOrRejects : Prop :=
  (∀ w : Word, decodeWord w = .ok (.build (w.extractLsb' 8 8)) ↔ w &&& 0xFFFF00FF#32 = 0x60000000#32) ∧
  (∀ (s : State) (q : Byte), s.seq.length ≤ 65535 →
    (s.seq = [] → exec (.build q) s = .next { s with out := some (.reject .empty), note := none }) ∧
    (65529 ≤ s.seq.length → exec (.build q) s = .next { s with out := some (.reject .width), note := none }) ∧
    (s.seq ≠ [] → s.seq.length + 7 ≤ 65535 → s.params.maxPacket - 2 < s.seq.length + 7 →
      exec (.build q) s = .next { s with out := some (.reject .tooLarge), note := none }) ∧
    (s.seq ≠ [] → s.seq.length + 7 ≤ 65535 → s.seq.length + 7 ≤ s.params.maxPacket - 2 →
      ∃ body : List Byte,
        body = [s.params.p0, s.params.p1, BitVec.ofNat 8 (s.seq.length + 7), BitVec.ofNat 8 ((s.seq.length + 7) / 256), q] ++
          s.seq ∧
        exec (.build q) s = .next { s with
          out := some (.frame (body ++
            [BitVec.ofNat 8 (crc16 body).toNat, BitVec.ofNat 8 ((crc16 body).toNat / 256)]))
          note := none }))

/-- Every frame BUILD returns is an accepted frame with its queue-id and payload: the length field equals the frame length and
the CRC field covers the bytes before it; it has at least 8 bytes (R163, R60, R45). -/
def Obligations.BuiltFramesAreWellFormed : Prop :=
  ∀ (s t : State) (q : Byte) (f : List Byte), exec (.build q) s = .next t → t.out = some (.frame f) →
    Accepted s.params f q s.seq ∧ 8 ≤ f.length ∧ f.length = 7 + s.seq.length

/-- BUILD rejects exactly the payload lengths whose frame the parser's HEADER arm drops, plus those the length field cannot
hold (R161). -/
def Obligations.BuilderBoundsAreTheParsers : Prop :=
  ∀ (s : State) (q : Byte) (k : BitVec 8) (l : Link),
    s.seq.length ≤ 65535 → k.toNat < s.params.numLinks → s.links[k.toNat]? = some l → l.phase = .header →
    l.hdr = [BitVec.ofNat 8 (s.seq.length + 7)] →
    ((∃ r, exec (.build q) s = .next { s with out := some (.reject r), note := none }) ↔
      65535 < s.seq.length + 7 ∨
        ∃ (t : State) (d : Drop),
          exec (.rxb k (BitVec.ofNat 8 ((s.seq.length + 7) / 256))) s = .next t ∧ t.note = some d)

/-- Round trip: for every queue-id and every payload of 1 to MAX_PAYLOAD bytes, BUILD returns a frame, and feeding that frame
to an IDLE link, with fewer than TIMEOUT ticks before each byte but the first, delivers exactly that queue-id and payload on
the last byte and leaves the link IDLE with `cd = TIMEOUT` (R162). -/
def Obligations.BuildThenParseRoundTrip : Prop :=
  ∀ (s : State) (q : Byte) (k : BitVec 8) (l : Link),
    s.Inv → 1 ≤ s.seq.length → s.seq.length ≤ s.params.maxPacket - 9 → s.seq.length ≤ 65528 →
    k.toNat < s.params.numLinks → s.links[k.toNat]? = some l → l.phase = .idle →
    ∃ (f : List Byte) (s1 : State),
      exec (.build q) s = .next s1 ∧ s1.out = some (.frame f) ∧
      ∀ g : List (Nat × Byte), g.map Prod.snd = f → gapsShort s.params g →
        doAll (feedWithTicks k g) s1 = some
          ({ s1 with
              links := s.links.set k.toNat (Link.idleWith s.params.timeout)
              out := some (.deliver k q s.seq)
              note := none },
            List.replicate ((feedWithTicks k g).length - 1) silent ++ [(some (.deliver k q s.seq), none)])
end

