-- ==== Sys2Proof/Laws/State.lean ====
section
/-!
SUPPORT. The small lemmas of state: one per field per update, so that no later proof unfolds a record update.
-/

namespace Sys2Proof.Machine

/-! ### The step of a link command -/

section
variable (s : State) (k : BitVec 8) (r : LinkStep) (e : Event)

@[simp] theorem State.commit_params : (s.commit k r).params = s.params := rfl
@[simp] theorem State.commit_links : (s.commit k r).links = s.links.set k.toNat r.link := rfl
@[simp] theorem State.commit_pending : (s.commit k r).pending = s.pending := rfl
@[simp] theorem State.commit_seq : (s.commit k r).seq = s.seq := rfl
@[simp] theorem State.commit_out : (s.commit k r).out = r.out := rfl
@[simp] theorem State.commit_note : (s.commit k r).note = r.note := rfl

/-! ### The step of an engine command -/

@[simp] theorem State.result_params : (s.result e).params = s.params := rfl
@[simp] theorem State.result_links : (s.result e).links = s.links := rfl
@[simp] theorem State.result_pending : (s.result e).pending = s.pending := rfl
@[simp] theorem State.result_seq : (s.result e).seq = s.seq := rfl
@[simp] theorem State.result_out : (s.result e).out = some e := rfl
@[simp] theorem State.result_note : (s.result e).note = none := rfl
end

/-! ### Power-on -/

section
variable (p : Params)

@[simp] theorem State.powerOn_params : (State.powerOn p).params = p := rfl
@[simp] theorem State.powerOn_links : (State.powerOn p).links = List.replicate p.numLinks Link.reset := rfl
@[simp] theorem State.powerOn_pending : (State.powerOn p).pending = [] := rfl
@[simp] theorem State.powerOn_seq : (State.powerOn p).seq = [] := rfl
@[simp] theorem State.powerOn_out : (State.powerOn p).out = none := rfl
@[simp] theorem State.powerOn_note : (State.powerOn p).note = none := rfl
end

/-! ### Link records -/

section
variable (l : Link) (r : Drop) (p : Params) (x : LinkStep)

@[simp] theorem Link.quiet_link : l.quiet.link = l := rfl
@[simp] theorem Link.quiet_out : l.quiet.out = none := rfl
@[simp] theorem Link.quiet_note : l.quiet.note = none := rfl
@[simp] theorem Link.annotate_link : (l.annotate r).link = l := rfl
@[simp] theorem Link.annotate_out : (l.annotate r).out = none := rfl
@[simp] theorem Link.annotate_note : (l.annotate r).note = some r := rfl
@[simp] theorem Link.drop_link : (l.drop r).link = l.toIdle := rfl
@[simp] theorem Link.drop_out : (l.drop r).out = none := rfl
@[simp] theorem Link.drop_note : (l.drop r).note = some r := rfl
@[simp] theorem LinkStep.restore_link : (x.restore p).link = { x.link with cd := p.timeout } := rfl
@[simp] theorem LinkStep.restore_out : (x.restore p).out = x.out := rfl
@[simp] theorem LinkStep.restore_note : (x.restore p).note = x.note := rfl

/-- The return to IDLE leaves every field but the countdown at its reset value (41_parser.md R121). -/
theorem Link.toIdle_eq_idleWith : l.toIdle = Link.idleWith l.cd := rfl

@[simp] theorem Link.toIdle_phase : l.toIdle.phase = .idle := rfl
@[simp] theorem Link.toIdle_pre : l.toIdle.pre = [] := rfl
@[simp] theorem Link.toIdle_hdr : l.toIdle.hdr = [] := rfl
@[simp] theorem Link.toIdle_pay : l.toIdle.pay = [] := rfl
@[simp] theorem Link.toIdle_cks : l.toIdle.cks = [] := rfl
@[simp] theorem Link.toIdle_tlen : l.toIdle.tlen = 0#16 := rfl
@[simp] theorem Link.toIdle_qid : l.toIdle.qid = 0#8 := rfl
@[simp] theorem Link.toIdle_cd : l.toIdle.cd = l.cd := rfl

/-- The return to IDLE with the countdown restored (41_parser.md R121, R124). -/
@[simp] theorem Link.toIdle_withCountdown (c : Nat) : { l.toIdle with cd := c } = Link.idleWith c := rfl

/-- LRESET leaves the reset record, whatever the link held (41_parser.md R122, 10_state.md R28). -/
@[simp] theorem Link.lreset_eq_reset : l.lreset = Link.reset := rfl

/-- The reset record is IDLE with a countdown of 0 (10_state.md R28). -/
theorem Link.reset_eq_idleWith : Link.reset = Link.idleWith 0 := rfl
end

end Sys2Proof.Machine
end

