-- ==== Sys2Proof/Laws/Ops.lean ====
section
/-!
SUPPORT. What each shared operation can do, once each: operands, commands on a link, commands on the sequence, the fetch,
and byte order.
-/

namespace Sys2Proof.Machine

/-- The link operand: there is one exactly where the index is below NUM_LINKS and the record exists (30_encoding.md R75). -/
theorem State.link?_eq_some {s : State} {k : BitVec 8} {l : Link} :
    s.link? k = some l ↔ k.toNat < s.params.numLinks ∧ s.links[k.toNat]? = some l := by
  by_cases h : k.toNat < s.params.numLinks <;> simp [State.link?, h]

/-- Below NUM_LINKS a machine that has NUM_LINKS links has a link operand. -/
theorem State.exists_link? {s : State} {k : BitVec 8} (hn : s.links.length = s.params.numLinks)
    (hk : k.toNat < s.params.numLinks) : ∃ l, s.link? k = some l :=
  ⟨s.links[k.toNat], State.link?_eq_some.2 ⟨hk, List.getElem?_eq_getElem (hn ▸ hk)⟩⟩

/-- A command on a link that exists does to the machine what it does to the link. -/
theorem State.onLink_of_link? {s : State} {k : BitVec 8} {l : Link} {f : Link → Host.Outcome LinkStep Fault Refusal}
    {r : LinkStep} (hl : s.link? k = some l) (hf : f l = .next r) : s.onLink k f = .next (s.commit k r) := by
  simp [State.onLink, hl, hf]

/-- Everything a command on a link can do when it answers a next state. -/
theorem State.onLink_eq_next {s t : State} {k : BitVec 8} {f : Link → Host.Outcome LinkStep Fault Refusal} :
    s.onLink k f = .next t ↔ ∃ l r, s.link? k = some l ∧ f l = .next r ∧ t = s.commit k r := by
  constructor
  · intro h
    unfold State.onLink at h
    split at h
    · cases h
    · rename_i l hl
      split at h
      · rename_i r hr
        exact ⟨l, r, hl, hr, by cases h; rfl⟩
      · cases h
      · cases h
  · rintro ⟨l, r, hl, hr, rfl⟩
    exact State.onLink_of_link? hl hr

/-- Without a link operand a command on a link is refused NO_LINK (30_encoding.md R75). -/
theorem State.onLink_of_no_link {s : State} {k : BitVec 8} {f : Link → Host.Outcome LinkStep Fault Refusal}
    (hk : s.params.numLinks ≤ k.toNat) : s.onLink k f = .refused .noLink := by
  simp [State.onLink, State.link?, Nat.not_lt.2 hk]

/-- Everything a command on the sequence can do when it answers a next state. -/
theorem State.onSequence_eq_next {s t : State} {f : List Byte → Event} :
    s.onSequence f = .next t ↔ s.seq.length ≤ maxSeqLen ∧ t = s.result (f s.seq) := by
  by_cases h : s.seq.length ≤ maxSeqLen
  · simp [State.onSequence, State.sequence?, h, eq_comm]
  · simp [State.onSequence, State.sequence?, h]

/-- A sequence that the port cannot present is refused (30_encoding.md R76). -/
theorem State.onSequence_of_overlong {s : State} {f : List Byte → Event} (h : maxSeqLen < s.seq.length) :
    s.onSequence f = .refused .sequenceTooLong := by
  simp [State.onSequence, State.sequence?, Nat.not_le.2 h]

/-- The fetch takes the oldest pending command (30_encoding.md R70). -/
theorem State.fetch_of_pending {s : State} {c : Command} {rest : List Command} (h : s.pending = c :: rest) :
    s.fetch = some (c.word, { s with pending := rest, seq := c.seq }) := by
  simp [State.fetch, h]

/-- Without a pending command there is nothing to fetch. -/
theorem State.fetch_of_no_pending {s : State} (h : s.pending = []) : s.fetch = none := by
  simp [State.fetch, h]

/-- The constraints of 00_scope.md R6, spelt out. -/
theorem Params.ok_iff {p : Params} :
    p.ok = true ↔ 10 ≤ p.maxPacket ∧ 1 ≤ p.timeout ∧ 1 ≤ p.numLinks ∧ p.numLinks ≤ 256 := by
  simp [Params.ok, and_assoc]

/-- A little-endian field as a number: low byte first (00_scope.md R13, 30_encoding.md R61). -/
@[simp] theorem toNat_fromLe16 (a b : Byte) : (fromLe16 a b).toNat = a.toNat + 256 * b.toNat := by
  have h : (fromLe16 a b) = b ++ a := by
    apply BitVec.eq_of_getLsbD_eq
    intro i hi
    simp only [fromLe16, BitVec.getLsbD_or, BitVec.getLsbD_shiftLeft, BitVec.getLsbD_setWidth, BitVec.getLsbD_append]
    by_cases h8 : i < 8
    · simp [h8, hi]
    · have : a.getLsbD i = false := BitVec.getLsbD_of_ge a i (by omega)
      simp [h8, hi, this]
      intro _
      omega
  rw [h, BitVec.toNat_append, Nat.shiftLeft_eq, Nat.mul_comm, ← Nat.two_pow_add_eq_or_of_lt a.isLt]
  omega

/-- The little-endian encoding has two bytes (40_checksum.md R103). -/
@[simp] theorem length_le16 (v : Half) : (le16 v).length = 2 := rfl

/-- The low byte as a number. -/
@[simp] theorem toNat_lo (v : Half) : (lo v).toNat = v.toNat % 256 := by simp [lo]

/-- The high byte as a number. -/
@[simp] theorem toNat_hi (v : Half) : (hi v).toNat = v.toNat / 256 := by
  have := v.isLt
  simp [hi, Nat.shiftRight_eq_div_pow]
  omega

/-- The bytes of a 16-bit value give it back (40_checksum.md R103). -/
@[simp] theorem fromLe16_lo_hi (v : Half) : fromLe16 (lo v) (hi v) = v := by
  apply BitVec.eq_of_toNat_eq
  simp
  omega

/-- The low byte of a little-endian field. -/
@[simp] theorem lo_fromLe16 (a b : Byte) : lo (fromLe16 a b) = a := by
  apply BitVec.eq_of_toNat_eq
  have := a.isLt
  simp
  omega

/-- The high byte of a little-endian field. -/
@[simp] theorem hi_fromLe16 (a b : Byte) : hi (fromLe16 a b) = b := by
  apply BitVec.eq_of_toNat_eq
  have := a.isLt
  simp
  omega

/-- Two bytes are the little-endian encoding of a value exactly when they read as it (40_checksum.md R103). -/
theorem le16_eq_pair {v : Half} {a b : Byte} : [a, b] = le16 v ↔ a.toNat + 256 * b.toNat = v.toNat := by
  constructor
  · intro h
    simp only [le16, List.cons.injEq, and_true] at h
    rw [h.1, h.2, ← toNat_fromLe16, fromLe16_lo_hi]
  · intro h
    have hv : v = fromLe16 a b := BitVec.eq_of_toNat_eq (by simp [h])
    simp [le16, hv]

end Sys2Proof.Machine
end

