-- ==== Sys2Proof/Laws/Checksum.lean ====
section
/-!
SUPPORT. The table and the CRC update: the transcribed table is the generated one, and the update loses no information of
the register or of the byte.
-/

namespace Sys2Proof.Machine

/-- The table has 256 entries (10_state.md R26). -/
theorem length_crcTable : crcTable.length = 256 := by
  have h0 : crcTable0.length = 64 := by decide
  have h1 : crcTable1.length = 64 := by decide
  have h2 : crcTable2.length = 64 := by decide
  have h3 : crcTable3.length = 64 := by decide
  rw [crcTable, List.length_append, List.length_append, List.length_append, h0, h1, h2, h3]

/-- The transcribed table is the one R100's generator gives. -/
theorem tableAt_eq_generator : ∀ i : Byte, tableAt i = generator i := by decide

/-- The index a table entry's high byte comes from. -/
def tableIndexOfHigh (h : Byte) : Byte :=
  [0x03#8, 0x06#8, 0x0F#8, 0x1E#8, 0x3F#8, 0x7E#8, 0xFF#8, 0xFE#8].zipIdx.foldl
    (fun a x => if h.getLsbD x.2 then a ^^^ x.1 else a) 0#8

/-- An entry's high byte says which entry it is. -/
theorem tableIndexOfHigh_hi : ∀ i : Byte, tableIndexOfHigh (hi (tableAt i)) = i := by decide

/-- The high byte of an update is the table entry's: the shifted register has none (40_checksum.md R101). -/
theorem hi_crcu (c : Half) (b : Byte) : hi (crcu c b) = hi (tableAt (lo c ^^^ b)) := by
  have : hi (c >>> 8) = 0#8 := by
    apply BitVec.eq_of_toNat_eq
    have := c.isLt
    simp [Nat.shiftRight_eq_div_pow]
    omega
  have h : hi (crcu c b) = hi (c >>> 8) ^^^ hi (tableAt (lo c ^^^ b)) := by simp [crcu, hi, BitVec.extractLsb'_xor]
  simp [h, this]

/-- Updates with equal results had equal table indices. -/
theorem crcu_index_injective {c c' : Half} {b b' : Byte} (h : crcu c b = crcu c' b') : lo c ^^^ b = lo c' ^^^ b' := by
  have := congrArg (fun v => tableIndexOfHigh (hi v)) h
  simpa [hi_crcu, tableIndexOfHigh_hi] using this

/-- Updates with equal results had equal high register bytes. -/
theorem crcu_high_injective {c c' : Half} {b b' : Byte} (h : crcu c b = crcu c' b') : hi c = hi c' := by
  have h2 : c >>> 8 = c' >>> 8 := by
    have hi := crcu_index_injective h
    unfold crcu at h
    rw [hi] at h
    simpa using h
  apply BitVec.eq_of_toNat_eq
  simpa [Nat.shiftRight_eq_div_pow] using congrArg BitVec.toNat h2

/-- For a fixed byte the update is injective in the register. -/
theorem crcu_injective {c c' : Half} {b : Byte} (h : crcu c b = crcu c' b) : c = c' := by
  have h1 : lo c = lo c' := by simpa using crcu_index_injective h
  rw [← fromLe16_lo_hi c, ← fromLe16_lo_hi c', h1, crcu_high_injective h]

/-- For a fixed register the update is injective in the byte. -/
theorem crcu_byte_injective {c : Half} {b b' : Byte} (h : crcu c b = crcu c b') : b = b' := by
  simpa using crcu_index_injective h

/-- The same bytes after different registers leave different registers. -/
theorem foldl_crcu_injective (s : List Byte) : ∀ {c c' : Half}, s.foldl crcu c = s.foldl crcu c' → c = c' := by
  induction s with
  | nil => exact fun h => h
  | cons b s ih => exact fun h => crcu_injective (ih h)

/-- One more byte is one more update (40_checksum.md R102). -/
theorem crc16_concat (s : List Byte) (b : Byte) : crc16 (s ++ [b]) = crcu (crc16 s) b := by
  simp [crc16, List.foldl_append]

end Sys2Proof.Machine
end

