-- ==== Sys2Proof/Laws/Decode.lean ====
section
/-!
SUPPORT. The fields of an encoded word, and each row of the opcode map as a statement about fields (30_encoding.md R71, R72).
-/

namespace Sys2Proof

/-! ### The fields of the three formats' words -/

/-- A field of a word, bit by bit. -/
theorem extract_eq_iff {w : Word} {a n : Nat} {v : BitVec n} :
    w.extractLsb' a n = v ↔ ∀ i < n, w.getLsbD (a + i) = v.getLsbD i := by
  constructor
  · rintro rfl i hi
    simp [hi]
  · intro h
    apply BitVec.eq_of_getLsbD_eq
    intro i hi
    simp [hi, h i hi]

section
variable (op : BitVec 4) (k b q : BitVec 8) (c : Half)

@[simp] theorem opField_wordL : opField (wordL op k b) = op :=
  extract_eq_iff.2 fun i hi => by
    simp only [wordL, BitVec.getLsbD_append]
    interval_cases i <;> simp

@[simp] theorem linkField_wordL : linkField (wordL op k b) = k :=
  extract_eq_iff.2 fun i hi => by
    simp only [wordL, BitVec.getLsbD_append]
    interval_cases i <;> simp

@[simp] theorem dataField_wordL : dataField (wordL op k b) = b :=
  extract_eq_iff.2 fun i hi => by
    simp only [wordL, BitVec.getLsbD_append]
    interval_cases i <;> simp

@[simp] theorem opField_wordC : opField (wordC op c b) = op :=
  extract_eq_iff.2 fun i hi => by
    simp only [wordC, BitVec.getLsbD_append]
    interval_cases i <;> simp

@[simp] theorem crcField_wordC : crcField (wordC op c b) = c :=
  extract_eq_iff.2 fun i hi => by
    simp only [wordC, BitVec.getLsbD_append]
    interval_cases i <;> simp

@[simp] theorem dataField_wordC : dataField (wordC op c b) = b :=
  extract_eq_iff.2 fun i hi => by
    simp only [wordC, BitVec.getLsbD_append]
    interval_cases i <;> simp

@[simp] theorem opField_wordS : opField (wordS op q) = op :=
  extract_eq_iff.2 fun i hi => by
    simp only [wordS, BitVec.getLsbD_append]
    interval_cases i <;> simp

@[simp] theorem qidField_wordS : qidField (wordS op q) = q :=
  extract_eq_iff.2 fun i hi => by
    simp only [wordS, BitVec.getLsbD_append]
    interval_cases i <;> simp

end

/-! ### The rows of the opcode map, by their fields -/

/-- A word is a row's exactly when it agrees with the row's pattern on every field the mask covers (R72). -/
theorem and_eq_iff_fields {w m p : Word} (fields : List (Nat × Nat))
    (hm : ∀ i < 32, m.getLsbD i = fields.any fun f => decide (f.1 ≤ i) && decide (i < f.1 + f.2))
    (hp : p &&& m = p) :
    w &&& m = p ↔ ∀ f ∈ fields, w.extractLsb' f.1 f.2 = p.extractLsb' f.1 f.2 := by
  constructor
  · intro h f hf
    rw [← h]
    apply extract_eq_iff.2
    intro i hi
    by_cases h32 : f.1 + i < 32
    · have : m.getLsbD (f.1 + i) = true := by
        rw [hm _ h32, List.any_eq_true]
        exact ⟨f, hf, by simp [hi]⟩
      simp [hi, this]
    · simp [BitVec.getLsbD_extractLsb', BitVec.getLsbD_of_ge _ _ (Nat.not_lt.1 h32)]
  · intro h
    apply BitVec.eq_of_getLsbD_eq
    intro i hi
    rw [← hp]
    simp only [BitVec.getLsbD_and]
    cases hb : m.getLsbD i with
    | false => simp
    | true =>
      rw [hm i hi, List.any_eq_true] at hb
      obtain ⟨f, hf, hfi⟩ := hb
      simp only [Bool.and_eq_true, decide_eq_true_eq] at hfi
      have := extract_eq_iff.1 (h f hf) (i - f.1) (by omega)
      rw [Nat.add_sub_cancel' hfi.1] at this
      simpa [BitVec.getLsbD_extractLsb', show i - f.1 < f.2 by omega, Nat.add_sub_cancel' hfi.1] using this

/-- LRESET's row: the opcode, and bits 19:0 zero (R71). -/
theorem and_maskLreset (w : Word) : w &&& 0xF00FFFFF#32 = 0x10000000#32 ↔ opField w = 1#4 ∧ w.extractLsb' 0 20 = 0#20 := by
  rw [and_eq_iff_fields [(28, 4), (0, 20)] (by decide) (by decide)]
  simp [opField]

/-- TICK's row: the opcode, and bits 19:0 zero (R71). -/
theorem and_maskTick (w : Word) : w &&& 0xF00FFFFF#32 = 0x20000000#32 ↔ opField w = 2#4 ∧ w.extractLsb' 0 20 = 0#20 := by
  rw [and_eq_iff_fields [(28, 4), (0, 20)] (by decide) (by decide)]
  simp [opField]

/-- RXB's row: the opcode, and bits 19:8 zero (R71). -/
theorem and_maskRxb (w : Word) : w &&& 0xF00FFF00#32 = 0x30000000#32 ↔ opField w = 3#4 ∧ w.extractLsb' 8 12 = 0#12 := by
  rw [and_eq_iff_fields [(28, 4), (8, 12)] (by decide) (by decide)]
  simp [opField]

/-- CRCU's row: the opcode, and bits 27:24 zero (R71). -/
theorem and_maskCrcu (w : Word) : w &&& 0xFF000000#32 = 0x40000000#32 ↔ opField w = 4#4 ∧ w.extractLsb' 24 4 = 0#4 := by
  rw [and_eq_iff_fields [(28, 4), (24, 4)] (by decide) (by decide)]
  simp [opField]

/-- CRC's row: the opcode, and bits 27:0 zero (R71). -/
theorem and_maskCrc (w : Word) : w &&& 0xFFFFFFFF#32 = 0x50000000#32 ↔ opField w = 5#4 ∧ w.extractLsb' 0 28 = 0#28 := by
  rw [and_eq_iff_fields [(28, 4), (0, 28)] (by decide) (by decide)]
  simp [opField]

/-- BUILD's row: the opcode, and bits 27:16 and 7:0 zero (R71). -/
theorem and_maskBuild (w : Word) : w &&& 0xFFFF00FF#32 = 0x60000000#32 ↔ opField w = 6#4 ∧
    w.extractLsb' 16 12 = 0#12 ∧ w.extractLsb' 0 8 = 0#8 := by
  rw [and_eq_iff_fields [(28, 4), (16, 12), (0, 8)] (by decide) (by decide)]
  simp [opField]

/-- Reading a word under a row answers the command exactly where the row holds the word (R73). -/
theorem OpcodeRow.read_eq_ok {r : OpcodeRow} {w : Word} {i j : Instr} :
    r.read w i = .ok j ↔ w &&& r.mask = r.pattern ∧ i = j := by
  unfold OpcodeRow.read OpcodeRow.matches
  by_cases h : w &&& r.mask = r.pattern <;> simp [h]

/-- Reading a word under a row answers RESERVED exactly where the row does not hold it (R73, R74). -/
theorem OpcodeRow.read_eq_error {r : OpcodeRow} {w : Word} {i : Instr} {e : DecodeRefusal} :
    r.read w i = .error e ↔ w &&& r.mask ≠ r.pattern ∧ .reserved = e := by
  unfold OpcodeRow.read OpcodeRow.matches
  by_cases h : w &&& r.mask = r.pattern <;> simp [h]

end Sys2Proof
end

