-- ==== Sys2Proof/Laws/Exec.lean ====
section
/-!
SUPPORT. What a command can do, said once: each arm of `exec` as its shared operation, RXB where the spec gives it a value,
and the two inversion lemmas, for commands on a link and for the stateless engines.
-/

namespace Sys2Proof.Machine

section
variable (s : State) (k : BitVec 8) (b q : Byte) (c : Half)

/-- LRESET as a command on its link (41_parser.md R122). -/
theorem exec_lreset : exec (.lreset k) s = s.onLink k fun l => .next l.lreset.quiet := rfl

/-- TICK as a command on its link (R123). -/
theorem exec_tick : exec (.tick k) s = s.onLink k fun l => .next l.tick := rfl

/-- RXB as a command on its link (R124). -/
theorem exec_rxb : exec (.rxb k b) s = s.onLink k fun l => l.rxb s.params k b := rfl

/-- CRCU as a result (40_checksum.md R101). -/
theorem exec_crcu : exec (.crcu c b) s = .next (s.result (.crcOut (crcu c b))) := rfl

/-- CRC as a command on the sequence (R102). -/
theorem exec_crc : exec .crc s = s.onSequence fun p => .crcOut (crc16 p) := rfl

/-- BUILD as a command on the sequence (42_builder.md R160). -/
theorem exec_build : exec (.build q) s = s.onSequence fun p => buildEvent s.params q p := rfl
end

/-- The one case of RXB without a value (93_implementation_defined.md I6). -/
theorem Link.payloadUndefined_eq_false {l : Link} :
    l.payloadUndefined = false ↔ (l.phase = .payload → overhead < l.tlen.toNat) := by
  by_cases h : l.phase = .payload <;> simp [Link.payloadUndefined, h]

/-- RXB answers a next state exactly where the spec gives it a value: the arm's step with the countdown restored (R124). -/
theorem Link.rxb_eq_next {p : Params} {k : BitVec 8} {l : Link} {b : Byte} {r : LinkStep} :
    l.rxb p k b = .next r ↔ (l.phase = .payload → overhead < l.tlen.toNat) ∧ r = (l.rxbArm p k b).restore p := by
  rw [← Link.payloadUndefined_eq_false]
  cases h : l.payloadUndefined <;> simp [Link.rxb, h, eq_comm]

/-- A command on a link that exists answers the link's step, committed. -/
theorem State.onLink_next {s : State} {k : BitVec 8} {l : Link} {f : Link → Host.Outcome LinkStep Fault Refusal}
    {r : LinkStep} (hk : k.toNat < s.params.numLinks) (hl : s.links[k.toNat]? = some l) (hf : f l = .next r) :
    s.onLink k f = .next (s.commit k r) :=
  State.onLink_of_link? (State.link?_eq_some.2 ⟨hk, hl⟩) hf

/-- The three steps a link command can take on its link. -/
inductive LinkCommandStep (p : Params) (k : BitVec 8) (l : Link) : Instr → LinkStep → Prop where
  | lreset : LinkCommandStep p k l (.lreset k) l.lreset.quiet
  | tick : LinkCommandStep p k l (.tick k) l.tick
  | rxb (b : Byte) (h : l.phase = .payload → overhead < l.tlen.toNat) :
      LinkCommandStep p k l (.rxb k b) ((l.rxbArm p k b).restore p)

/-- Everything a link command does when it answers a next state. -/
theorem exec_link_inversion {s t : State} {i : Instr} {k : BitVec 8} (hk : i.link? = some k) (h : exec i s = .next t) :
    ∃ l r, k.toNat < s.params.numLinks ∧ s.links[k.toNat]? = some l ∧ LinkCommandStep s.params k l i r ∧
      t = s.commit k r := by
  cases i with
  | lreset j =>
    cases hk
    obtain ⟨l, r, hl, hf, rfl⟩ := State.onLink_eq_next.1 (exec_lreset s k ▸ h)
    cases hf
    exact ⟨l, _, (State.link?_eq_some.1 hl).1, (State.link?_eq_some.1 hl).2, .lreset, rfl⟩
  | tick j =>
    cases hk
    obtain ⟨l, r, hl, hf, rfl⟩ := State.onLink_eq_next.1 (exec_tick s k ▸ h)
    cases hf
    exact ⟨l, _, (State.link?_eq_some.1 hl).1, (State.link?_eq_some.1 hl).2, .tick, rfl⟩
  | rxb j b =>
    cases hk
    obtain ⟨l, r, hl, hf, rfl⟩ := State.onLink_eq_next.1 (exec_rxb s k b ▸ h)
    obtain ⟨hu, rfl⟩ := Link.rxb_eq_next.1 hf
    exact ⟨l, _, (State.link?_eq_some.1 hl).1, (State.link?_eq_some.1 hl).2, .rxb b hu, rfl⟩
  | crcu c b => cases hk
  | crc => cases hk
  | build q => cases hk

/-- The three results an engine command can give. -/
inductive EngineResult (s : State) : Instr → Event → Prop where
  | crcu (c : Half) (b : Byte) : EngineResult s (.crcu c b) (.crcOut (Machine.crcu c b))
  | crc (h : s.seq.length ≤ maxSeqLen) : EngineResult s .crc (.crcOut (crc16 s.seq))
  | build (q : Byte) (h : s.seq.length ≤ maxSeqLen) : EngineResult s (.build q) (buildEvent s.params q s.seq)

/-- Everything an engine command does when it answers a next state (10_state.md R31). -/
theorem exec_engine_inversion {s t : State} {i : Instr} (hk : i.link? = none) (h : exec i s = .next t) :
    ∃ e, EngineResult s i e ∧ t = s.result e := by
  cases i with
  | lreset k => cases hk
  | tick k => cases hk
  | rxb k b => cases hk
  | crcu c b =>
    cases h
    exact ⟨_, .crcu c b, rfl⟩
  | crc =>
    obtain ⟨hs, rfl⟩ := State.onSequence_eq_next.1 (exec_crc s ▸ h)
    exact ⟨_, .crc hs, rfl⟩
  | build q =>
    obtain ⟨hs, rfl⟩ := State.onSequence_eq_next.1 (exec_build s q ▸ h)
    exact ⟨_, .build q hs, rfl⟩

end Sys2Proof.Machine
end

