-- ==== Sys2Proof/Laws/Parser.lean ====
section
/-!
SUPPORT. The parser on one link record: what a tick and each arm of RXB answer, case by case, and the rows of the invariant.
-/

namespace Sys2Proof.Machine

/-! ### TICK (41_parser.md R123) -/

section
variable {l : Link}

/-- At 0 nothing changes. -/
theorem Link.tick_of_zero (h : l.cd = 0) : l.tick = l.quiet := by simp [Link.tick, h]

/-- Above 1 the countdown goes down by one. -/
theorem Link.tick_of_two_le (h : 2 ≤ l.cd) : l.tick = { l with cd := l.cd - 1 }.quiet := by
  have h0 : 0 < l.cd := by omega
  have h1 : ¬l.cd - 1 = 0 := by omega
  simp [Link.tick, h0, h1]

/-- From 1 to 0 a partial frame is abandoned. -/
theorem Link.tick_of_one (h : l.cd = 1) (hp : l.phase ≠ .idle) :
    l.tick = { link := Link.idleWith 0, out := none, note := some .timeout } := by
  simp [Link.tick, h, hp]
  rfl

/-- From 1 to 0 in IDLE nothing is abandoned. -/
theorem Link.tick_of_one_idle (h : l.cd = 1) (hp : l.phase = .idle) : l.tick = (Link.idleWith 0).quiet := by
  simp [Link.tick, h, hp]
  rfl
end

/-! ### RXB, arm by arm -/

section
variable {p : Params} {k : BitVec 8} {l : Link} {b : Byte}

/-- IDLE and P0 (R125). -/
theorem Link.rxbIdle_of_eq (h : b = p.p0) : l.rxbIdle p b = { l with pre := [b], phase := .syncing }.quiet := if_pos h

/-- IDLE and any other byte (R125). -/
theorem Link.rxbIdle_of_ne (h : b ≠ p.p0) : l.rxbIdle p b = l.annotate .noise := if_neg h

/-- SYNCING with the preamble complete and right (R126). -/
theorem Link.rxbSync_of_eq (h : l.pre ++ [b] = [p.p0, p.p1]) :
    l.rxbSync p b = { l with pre := [p.p0, p.p1], phase := .header }.quiet := by
  simp [Link.rxbSync, h, preLen]

/-- SYNCING with the preamble complete and wrong (R126). -/
theorem Link.rxbSync_of_ne (h1 : l.pre.length = 1) (h : l.pre ++ [b] ≠ [p.p0, p.p1]) :
    l.rxbSync p b = { link := Link.idleWith l.cd, out := none, note := some .sync } := by
  simp [Link.rxbSync, h1, h, preLen]
  rfl

/-- SYNCING with a buffer that does not come to two bytes (R126). -/
theorem Link.rxbSync_of_length (h1 : l.pre.length ≠ 1) : l.rxbSync p b = { l with pre := l.pre ++ [b] }.quiet := by
  simp [Link.rxbSync, h1, preLen]

/-- The length a header of two bytes declares. -/
theorem toNat_lengthField (a b : Byte) : (lengthField [a, b]).toNat = a.toNat + 256 * b.toNat := toNat_fromLe16 a b

/-- HEADER, second byte, length at most OVERHEAD (R127). -/
theorem Link.rxbHeader_of_small {a : Byte} (hh : l.hdr = [a]) (h : (fromLe16 a b).toNat ≤ overhead) :
    l.rxbHeader p b = { link := Link.idleWith l.cd, out := none, note := some .lenSmall } := by
  have h' : (lengthField [a, b]).toNat ≤ overhead := h
  simp [Link.rxbHeader, Link.headerLength, hh, hdrLen, h', Link.headerQid]
  rfl

/-- HEADER, second byte, length above MAX_TOTAL (R127). -/
theorem Link.rxbHeader_of_large {a : Byte} (hh : l.hdr = [a]) (h : overhead < (fromLe16 a b).toNat)
    (h2 : p.maxTotal < (fromLe16 a b).toNat) :
    l.rxbHeader p b = { link := Link.idleWith l.cd, out := none, note := some .lenLarge } := by
  have h' : ¬(lengthField [a, b]).toNat ≤ overhead := Nat.not_le.2 h
  have h2' : p.maxTotal < (lengthField [a, b]).toNat := h2
  simp [Link.rxbHeader, Link.headerLength, hh, hdrLen, h', h2', Link.headerQid]
  rfl

/-- HEADER, second byte, length accepted (R127). -/
theorem Link.rxbHeader_of_ok {a : Byte} (hh : l.hdr = [a]) (h : overhead < (fromLe16 a b).toNat)
    (h2 : (fromLe16 a b).toNat ≤ p.maxTotal) :
    l.rxbHeader p b = { l with hdr := [a, b], tlen := fromLe16 a b }.quiet := by
  have h' : ¬(lengthField [a, b]).toNat ≤ overhead := Nat.not_le.2 h
  have h2' : ¬p.maxTotal < (lengthField [a, b]).toNat := Nat.not_lt.2 h2
  simp [Link.rxbHeader, Link.headerLength, hh, hdrLen, h', h2', Link.headerQid]
  rfl

/-- HEADER, third byte (R127). -/
theorem Link.rxbHeader_of_two (hh : l.hdr.length = 2) :
    l.rxbHeader p b = { l with hdr := l.hdr ++ [b], qid := b, phase := .payload }.quiet := by
  simp [Link.rxbHeader, Link.headerLength, hh, hdrLen, Link.headerQid]
  rfl

/-- HEADER, any other byte (R127). -/
theorem Link.rxbHeader_of_other (h1 : l.hdr.length ≠ 1) (h2 : l.hdr.length ≠ 2) :
    l.rxbHeader p b = { l with hdr := l.hdr ++ [b] }.quiet := by
  simp [Link.rxbHeader, Link.headerLength, hdrLen, Link.headerQid, h1, h2]
  rfl

/-- PAYLOAD, last byte (R128). -/
theorem Link.rxbPayload_of_last (h : l.pay.length + 1 = l.tlen.toNat - overhead) :
    l.rxbPayload b = { l with pay := l.pay ++ [b], phase := .checksum }.quiet := by
  simp [Link.rxbPayload, h]

/-- PAYLOAD, any other byte (R128). -/
theorem Link.rxbPayload_of_other (h : l.pay.length + 1 ≠ l.tlen.toNat - overhead) :
    l.rxbPayload b = { l with pay := l.pay ++ [b] }.quiet := by
  simp [Link.rxbPayload, h]

/-- CHECKSUM, second byte, match (R129, R130). -/
theorem Link.rxbChecksum_of_match (h1 : l.cks.length = 1) (h : l.cks ++ [b] = le16 (crc16 l.covered)) :
    l.rxbChecksum k b = { link := Link.idleWith l.cd, out := some (.deliver k l.qid l.pay), note := none } := by
  have h' : l.cks ++ [b] = le16 (crc16 ({ l with cks := l.cks ++ [b] } : Link).covered) := h
  have h2 : (l.cks ++ [b]).length = cksLen := by simp [h1, cksLen]
  simp only [Link.rxbChecksum, if_pos h2, if_pos h']
  rfl

/-- CHECKSUM, second byte, mismatch (R129). -/
theorem Link.rxbChecksum_of_mismatch (h1 : l.cks.length = 1) (h : l.cks ++ [b] ≠ le16 (crc16 l.covered)) :
    l.rxbChecksum k b = { link := Link.idleWith l.cd, out := none, note := some .crc } := by
  have h' : ¬l.cks ++ [b] = le16 (crc16 ({ l with cks := l.cks ++ [b] } : Link).covered) := h
  have h2 : (l.cks ++ [b]).length = cksLen := by simp [h1, cksLen]
  simp only [Link.rxbChecksum, if_pos h2, if_neg h']
  rfl

/-- CHECKSUM, any other byte (R129). -/
theorem Link.rxbChecksum_of_other (h1 : l.cks.length ≠ 1) : l.rxbChecksum k b = { l with cks := l.cks ++ [b] }.quiet := by
  simp [Link.rxbChecksum, h1, cksLen]

/-! ### The choice of arm (R124) -/

theorem Link.rxbArm_idle (h : l.phase = .idle) : l.rxbArm p k b = l.rxbIdle p b := by simp [Link.rxbArm, h]
theorem Link.rxbArm_syncing (h : l.phase = .syncing) : l.rxbArm p k b = l.rxbSync p b := by simp [Link.rxbArm, h]
theorem Link.rxbArm_header (h : l.phase = .header) : l.rxbArm p k b = l.rxbHeader p b := by simp [Link.rxbArm, h]
theorem Link.rxbArm_payload (h : l.phase = .payload) : l.rxbArm p k b = l.rxbPayload b := by simp [Link.rxbArm, h]
theorem Link.rxbArm_checksum (h : l.phase = .checksum) : l.rxbArm p k b = l.rxbChecksum k b := by simp [Link.rxbArm, h]

/-- A link is in one of the five phases (10_state.md R22). -/
theorem Phase.cases_eq (x : Phase) :
    x = .idle ∨ x = .syncing ∨ x = .header ∨ x = .payload ∨ x = .checksum := by
  cases x <;> simp

/-- No arm reads the countdown (R124): another countdown stays what it is and changes nothing else. -/
theorem Link.rxbArm_countdown (c : Nat) :
    ({ l with cd := c } : Link).rxbArm p k b =
      { l.rxbArm p k b with link := { (l.rxbArm p k b).link with cd := c } } := by
  rcases Phase.cases_eq l.phase with hp | hp | hp | hp | hp
  · rw [Link.rxbArm_idle hp, Link.rxbArm_idle (l := { l with cd := c }) hp]
    by_cases h : b = p.p0
    · rw [Link.rxbIdle_of_eq h, Link.rxbIdle_of_eq h]; rfl
    · rw [Link.rxbIdle_of_ne h, Link.rxbIdle_of_ne h]; rfl
  · rw [Link.rxbArm_syncing hp, Link.rxbArm_syncing (l := { l with cd := c }) hp]
    by_cases h1 : l.pre.length = 1
    · by_cases h : l.pre ++ [b] = [p.p0, p.p1]
      · rw [Link.rxbSync_of_eq h, Link.rxbSync_of_eq (l := { l with cd := c }) h]; rfl
      · rw [Link.rxbSync_of_ne h1 h, Link.rxbSync_of_ne (l := { l with cd := c }) h1 h]; rfl
    · rw [Link.rxbSync_of_length h1, Link.rxbSync_of_length (l := { l with cd := c }) h1]; rfl
  · rw [Link.rxbArm_header hp, Link.rxbArm_header (l := { l with cd := c }) hp]
    by_cases h1 : l.hdr.length = 1
    · obtain ⟨a, ha⟩ := List.length_eq_one_iff.1 h1
      rcases Nat.lt_or_ge overhead (fromLe16 a b).toNat with h | h
      · rcases Nat.lt_or_ge p.maxTotal (fromLe16 a b).toNat with h2 | h2
        · rw [Link.rxbHeader_of_large ha h h2, Link.rxbHeader_of_large (l := { l with cd := c }) ha h h2]; rfl
        · rw [Link.rxbHeader_of_ok ha h h2, Link.rxbHeader_of_ok (l := { l with cd := c }) ha h h2]; rfl
      · rw [Link.rxbHeader_of_small ha h, Link.rxbHeader_of_small (l := { l with cd := c }) ha h]; rfl
    · by_cases h2 : l.hdr.length = 2
      · rw [Link.rxbHeader_of_two h2, Link.rxbHeader_of_two (l := { l with cd := c }) h2]; rfl
      · rw [Link.rxbHeader_of_other h1 h2, Link.rxbHeader_of_other (l := { l with cd := c }) h1 h2]; rfl
  · rw [Link.rxbArm_payload hp, Link.rxbArm_payload (l := { l with cd := c }) hp]
    by_cases h : l.pay.length + 1 = l.tlen.toNat - overhead
    · rw [Link.rxbPayload_of_last h, Link.rxbPayload_of_last (l := { l with cd := c }) h]; rfl
    · rw [Link.rxbPayload_of_other h, Link.rxbPayload_of_other (l := { l with cd := c }) h]; rfl
  · rw [Link.rxbArm_checksum hp, Link.rxbArm_checksum (l := { l with cd := c }) hp]
    by_cases h1 : l.cks.length = 1
    · by_cases h : l.cks ++ [b] = le16 (crc16 l.covered)
      · rw [Link.rxbChecksum_of_match h1 h, Link.rxbChecksum_of_match (l := { l with cd := c }) h1 h]; rfl
      · rw [Link.rxbChecksum_of_mismatch h1 h, Link.rxbChecksum_of_mismatch (l := { l with cd := c }) h1 h]; rfl
    · rw [Link.rxbChecksum_of_other h1, Link.rxbChecksum_of_other (l := { l with cd := c }) h1]; rfl

/-! ### The rows of R24 -/

theorem Link.rowInv_idle (h : l.phase = .idle) : l.rowInv p = true ↔ l.idleInv := by simp [Link.rowInv, h]
theorem Link.rowInv_syncing (h : l.phase = .syncing) : l.rowInv p = true ↔ l.syncInv p := by simp [Link.rowInv, h]
theorem Link.rowInv_header (h : l.phase = .header) : l.rowInv p = true ↔ l.headerInv p := by simp [Link.rowInv, h]
theorem Link.rowInv_payload (h : l.phase = .payload) : l.rowInv p = true ↔ l.payloadInv p := by simp [Link.rowInv, h]
theorem Link.rowInv_checksum (h : l.phase = .checksum) : l.rowInv p = true ↔ l.checksumInv p := by simp [Link.rowInv, h]

/-- A link in IDLE of R24's table is `idleWith` its countdown. -/
theorem Link.eq_idleWith (h : l.Inv p) (hp : l.phase = .idle) : l = Link.idleWith l.cd := by
  obtain ⟨h1, h2, h3, h4, h5, h6⟩ := (Link.rowInv_idle hp).1 h.1
  cases l
  simp_all [Link.idleWith]

/-- An IDLE link with empty buffers meets the invariant for every countdown up to TIMEOUT. -/
theorem Link.inv_idleWith {c : Nat} (h : c ≤ p.timeout) : (Link.idleWith c).Inv p := by
  simp [Link.Inv, Link.rowInv, Link.idleWith, Link.idleInv, h]

/-- A link of R24's table has what RXB's PAYLOAD arm needs. -/
theorem Link.payload_length_of_inv (h : l.Inv p) : l.phase = .payload → overhead < l.tlen.toNat :=
  fun hp => ((Link.rowInv_payload hp).1 h.1).1.2.2.2.1.1
end

end Sys2Proof.Machine
end

