-- ==== Sys2Proof/Laws/PerInstr.lean ====
section
/-!
SUPPORT. Statements made once per instruction: the encoder's word lies in the instruction's own row of the opcode map
(30_encoding.md R71, R72).
-/

namespace Sys2Proof.Laws.EncodeMatches

/-- The word of a command agrees with its row's match under its row's mask (R72). -/
def Statement (i : Instr) : Prop := i.row.matches (encode i) = true

theorem lreset (k : BitVec 8) : Statement (.lreset k) :=
  beq_iff_eq.2 ((and_maskLreset _).2 ⟨opField_wordL .., extract_eq_iff.2 fun i hi => by
    simp only [encode, wordL, BitVec.getLsbD_append]
    interval_cases i <;> simp⟩)

theorem tick (k : BitVec 8) : Statement (.tick k) :=
  beq_iff_eq.2 ((and_maskTick _).2 ⟨opField_wordL .., extract_eq_iff.2 fun i hi => by
    simp only [encode, wordL, BitVec.getLsbD_append]
    interval_cases i <;> simp⟩)

theorem rxb (k : BitVec 8) (b : Byte) : Statement (.rxb k b) :=
  beq_iff_eq.2 ((and_maskRxb _).2 ⟨opField_wordL .., extract_eq_iff.2 fun i hi => by
    simp only [encode, wordL, BitVec.getLsbD_append]
    interval_cases i <;> simp⟩)

theorem crcu (c : Half) (b : Byte) : Statement (.crcu c b) :=
  beq_iff_eq.2 ((and_maskCrcu _).2 ⟨opField_wordC .., extract_eq_iff.2 fun i hi => by
    simp only [encode, wordC, BitVec.getLsbD_append]
    interval_cases i <;> simp⟩)

theorem crc : Statement .crc := beq_iff_eq.2 ((and_maskCrc _).2 (by decide))

theorem build (q : Byte) : Statement (.build q) :=
  beq_iff_eq.2 ((and_maskBuild _).2 ⟨opField_wordS .., extract_eq_iff.2 fun i hi => by
    simp only [encode, wordS, BitVec.getLsbD_append]
    interval_cases i <;> simp, extract_eq_iff.2 fun i hi => by
    simp only [encode, wordS, BitVec.getLsbD_append]
    interval_cases i <;> simp⟩)

end Sys2Proof.Laws.EncodeMatches
end

