-- ==== Sys2Proof/Laws/Runs.lean ====
section
/-!
SUPPORT. Runs of commands: appending two lists of them, the first step of one, and everything a byte can do to a link of
R24's table, said of the bytes the link holds.
-/

namespace Sys2Proof.Machine

/-- The bytes of the frame a link is in the middle of, in arrival order. -/
def Link.held (l : Link) : List Byte := l.pre ++ l.hdr ++ l.pay ++ l.cks

/-- The beginning of a frame that no rule has dropped and no byte has completed (30_encoding.md R62 (b)). -/
def Unfinished (p : Params) (w : List Byte) : Prop :=
  0 < w.length ∧ w.getD 0 0#8 = p.p0 ∧ (1 < w.length → w.getD 1 0#8 = p.p1) ∧
    (3 < w.length → overhead < frameLength w ∧ frameLength w ≤ p.maxTotal ∧ w.length < frameLength w)

/-- Why the byte that ends `w` dropped it (60_exceptions.md R181). -/
def SpoiltBy (p : Params) (w : List Byte) : Drop → Prop
  | .noise => w.length = 1 ∧ w.getD 0 0#8 ≠ p.p0
  | .sync => w.length = 2 ∧ w.getD 1 0#8 ≠ p.p1
  | .lenSmall => w.length = 4 ∧ frameLength w ≤ overhead
  | .lenLarge => w.length = 4 ∧ p.maxTotal < frameLength w
  | .crc => w.length = frameLength w ∧ 4 < w.length ∧
      w.drop (w.length - cksLen) ≠ le16 (crc16 (w.take (w.length - cksLen)))
  | .timeout => False

/-- Everything a byte can do to a link of R24's table that holds `w` with it (41_parser.md R124 to R130). -/
inductive RxbOutcome (p : Params) (k : BitVec 8) (w : List Byte) (r : LinkStep) : Prop where
  | kept (out : r.out = none) (note : r.note = none) (held : r.link.held = w) (phase : r.link.phase ≠ .idle)
  | delivered (q : Byte) (pay : List Byte) (h : Accepted p w q pay)
      (eq : r = { link := Link.idleWith p.timeout, out := some (.deliver k q pay), note := none })
  | dropped (d : Drop) (h : SpoiltBy p w d)
      (eq : r = { link := Link.idleWith p.timeout, out := none, note := some d })

/-- A list of three bytes, spelt out. -/
theorem eq_three {h : List Byte} (hl : h.length = 3) : ∃ a b c, h = [a, b, c] := by
  match h, hl with
  | [a, b, c], _ => exact ⟨a, b, c, rfl⟩

/-- Every byte on a link of R24's table has one of the three outcomes (R124 to R130). -/
theorem Link.rxb_outcome {p : Params} {k : BitVec 8} {l : Link} {b : Byte} (h : l.Inv p) :
    RxbOutcome p k (l.held ++ [b]) ((l.rxbArm p k b).restore p) := by
  rcases Phase.cases_eq l.phase with hp | hp | hp | hp | hp
  · obtain ⟨a1, a2, a3, a4, a5, a6⟩ := (Link.rowInv_idle hp).1 h.1
    rw [Link.rxbArm_idle hp]
    by_cases hb : b = p.p0
    · rw [Link.rxbIdle_of_eq hb]
      exact .kept rfl rfl (by simp [Link.held, a1, a2, a3, a4]) (by simp)
    · rw [Link.rxbIdle_of_ne hb]
      refine .dropped .noise (by simp [SpoiltBy, Link.held, a1, a2, a3, a4, hb]) ?_
      rw [Link.eq_idleWith h hp]
      rfl
  · obtain ⟨a1, a2, a3, a4, a5, a6⟩ := (Link.rowInv_syncing hp).1 h.1
    rw [Link.rxbArm_syncing hp]
    by_cases hb : b = p.p1
    · rw [Link.rxbSync_of_eq (by simp [a1, hb])]
      exact .kept rfl rfl (by simp [Link.held, a1, a2, a3, a4, hb]) (by simp)
    · rw [Link.rxbSync_of_ne (by simp [a1]) (by simp [a1, hb])]
      exact .dropped .sync (by simp [SpoiltBy, Link.held, a1, a2, a3, a4, hb]) rfl
  · obtain ⟨a1, a2, a3, a4, ⟨a5, a6⟩ | ⟨a5, a6, a7⟩⟩ := (Link.rowInv_header hp).1 h.1
    · rw [Link.rxbArm_header hp]
      match hh : l.hdr, a5 with
      | [], _ =>
        rw [Link.rxbHeader_of_other (by simp [hh]) (by simp [hh])]
        exact .kept rfl rfl (by simp [Link.held, a1, a2, a3, hh]) (by simp [hp])
      | [a], _ =>
        rcases Nat.lt_or_ge overhead (fromLe16 a b).toNat with c | c
        · rcases Nat.lt_or_ge p.maxTotal (fromLe16 a b).toNat with c2 | c2
          · rw [Link.rxbHeader_of_large hh c c2]
            exact .dropped .lenLarge (by simpa [SpoiltBy, Link.held, a1, a2, a3, hh, frameLength] using c2) rfl
          · rw [Link.rxbHeader_of_ok hh c c2]
            exact .kept rfl rfl (by simp [Link.held, a1, a2, a3, hh]) (by simp [hp])
        · rw [Link.rxbHeader_of_small hh c]
          exact .dropped .lenSmall (by simpa [SpoiltBy, Link.held, a1, a2, a3, hh, frameLength] using c) rfl
    · rw [Link.rxbArm_header hp, Link.rxbHeader_of_two a5]
      exact .kept rfl rfl (by simp [Link.held, a1, a2, a3]) (by simp)
  · obtain ⟨⟨a1, a2, a3, a4, a5⟩, a6, a7⟩ := (Link.rowInv_payload hp).1 h.1
    rw [Link.rxbArm_payload hp]
    by_cases c : l.pay.length + 1 = l.tlen.toNat - overhead
    · rw [Link.rxbPayload_of_last c]
      exact .kept rfl rfl (by simp [Link.held, a1, a6]) (by simp)
    · rw [Link.rxbPayload_of_other c]
      exact .kept rfl rfl (by simp [Link.held, a1, a6]) (by simp [hp])
  · obtain ⟨⟨a1, a2, a3, a4, a5⟩, a6, a7⟩ := (Link.rowInv_checksum hp).1 h.1
    rw [Link.rxbArm_checksum hp]
    match hh : l.cks, a6 with
    | [], _ =>
      rw [Link.rxbChecksum_of_other (by simp [hh])]
      exact .kept rfl rfl (by simp [Link.held, hh]) (by simp [hp])
    | [a], _ =>
      obtain ⟨x, y, z, hx⟩ := eq_three a2
      have hf : frameLength (l.held ++ [b]) = l.tlen.toNat := by
        simp [frameLength, Link.held, a1, hx, a3, lengthField]
      have hlen : (l.held ++ [b]).length = l.tlen.toNat := by
        have := a4.1
        simp only [Link.held, a1, hx, hh, a7, List.length_append, List.length_cons, List.length_nil]
        unfold overhead at *
        omega
      have hd : (l.held ++ [b]).drop ((l.held ++ [b]).length - cksLen) = l.cks ++ [b] := by
        have e : l.held ++ [b] = l.covered ++ (l.cks ++ [b]) := by simp [Link.held, Link.covered]
        rw [e, List.drop_left']; simp [hh, cksLen]
      have ht : (l.held ++ [b]).take ((l.held ++ [b]).length - cksLen) = l.covered := by
        have e : l.held ++ [b] = l.covered ++ (l.cks ++ [b]) := by simp [Link.held, Link.covered]
        rw [e, List.take_left']; simp [hh, cksLen]
      by_cases c : l.cks ++ [b] = le16 (crc16 l.covered)
      · rw [Link.rxbChecksum_of_match (by simp [hh]) c]
        refine .delivered l.qid l.pay ⟨⟨?_, ?_, ?_, ?_⟩, by rw [hlen, hf], ?_, ?_, by rw [hd, ht, c]⟩ rfl
        · simp [Link.held, a1]
        · simp [Link.held, a1]
        · rw [hf]; exact a4.1
        · rw [hf]; exact a4.2
        · simp [Link.held, a1, hx, a5]
        · rw [hf, ← a7]
          simp [Link.held, a1, hx]
      · rw [Link.rxbChecksum_of_mismatch (by simp [hh]) c]
        refine .dropped .crc ⟨by rw [hlen, hf], ?_, by rw [hd, ht]; exact c⟩ rfl
        have := a4.1
        rw [hlen]; unfold overhead at this; omega

/-- A link of R24's table outside IDLE holds the beginning of a frame. -/
theorem Link.unfinished_of_inv {p : Params} {l : Link} (h : l.Inv p) (hi : l.phase ≠ .idle) : Unfinished p l.held := by
  rcases Phase.cases_eq l.phase with hp | hp | hp | hp | hp
  · exact absurd hp hi
  · obtain ⟨a1, a2, a3, a4, a5, a6⟩ := (Link.rowInv_syncing hp).1 h.1
    simp [Unfinished, Link.held, *]
  · obtain ⟨a1, a2, a3, a4, ⟨a5, a6⟩ | ⟨a5, a6, a7⟩⟩ := (Link.rowInv_header hp).1 h.1
    · simp [Unfinished, Link.held, *]
    · match hh : l.hdr, a5 with
      | [x, y], _ =>
        have hf : frameLength ([p.p0, p.p1] ++ [x, y]) = l.tlen.toNat := by simp [frameLength, a6, hh, lengthField]
        simp only [Unfinished, Link.held, a1, a2, a3, hh, List.append_nil, hf]
        refine ⟨by simp, by simp, by simp, fun _ => ⟨a7.1, a7.2, ?_⟩⟩
        have := a7.1
        simp [overhead] at *; omega
  · obtain ⟨⟨a1, a2, a3, a4, a5⟩, a6, a7⟩ := (Link.rowInv_payload hp).1 h.1
    obtain ⟨x, y, z, hx⟩ := eq_three a2
    have hf : frameLength l.held = l.tlen.toNat := by simp [frameLength, Link.held, a1, hx, a3, lengthField]
    refine ⟨by simp [Link.held, a1], by simp [Link.held, a1], by simp [Link.held, a1], fun _ => ?_⟩
    rw [hf]
    refine ⟨a4.1, a4.2, ?_⟩
    have := a4.1
    simp [Link.held, a1, hx, a6, overhead] at *; omega
  · obtain ⟨⟨a1, a2, a3, a4, a5⟩, a6, a7⟩ := (Link.rowInv_checksum hp).1 h.1
    obtain ⟨x, y, z, hx⟩ := eq_three a2
    have hf : frameLength l.held = l.tlen.toNat := by simp [frameLength, Link.held, a1, hx, a3, lengthField]
    refine ⟨by simp [Link.held, a1], by simp [Link.held, a1], by simp [Link.held, a1], fun _ => ?_⟩
    rw [hf]
    refine ⟨a4.1, a4.2, ?_⟩
    have := a4.1
    simp [Link.held, a1, hx, overhead] at *; omega


/-- The beginning of a frame is not what a drop ends. -/
theorem Unfinished.not_spoilt {p : Params} {w : List Byte} {d : Drop} (h : Unfinished p w) : ¬SpoiltBy p w d := by
  obtain ⟨h1, h2, h3, h4⟩ := h
  cases d <;> simp only [SpoiltBy]
  · exact fun hd => hd.2 h2
  · exact fun hd => hd.2 (h3 (by omega))
  · intro hd; have := h4 (by omega); omega
  · intro hd; have := h4 (by omega); omega
  · intro hd; have := h4 (by omega); omega
  · simp

/-- An accepted frame is complete. -/
theorem Accepted.not_unfinished {p : Params} {w : List Byte} {q : Byte} {pay : List Byte} (h : Accepted p w q pay) :
    ¬Unfinished p w := by
  obtain ⟨⟨_, _, h3, _⟩, h4, _⟩ := h
  intro hu
  have := hu.2.2.2 (by unfold overhead at h3; omega)
  omega

/-- No byte of an accepted frame drops it. -/
theorem Accepted.not_spoilt {p : Params} {w : List Byte} {q : Byte} {pay : List Byte} {d : Drop} (h : Accepted p w q pay) :
    ¬SpoiltBy p w d := by
  obtain ⟨⟨h1, h2, h3, h3'⟩, h4, h5, h6, h7⟩ := h
  unfold overhead at h3
  cases d <;> simp only [SpoiltBy] <;> intro hd
  · exact hd.2 h1
  · exact hd.2 h2
  · omega
  · omega
  · exact hd.2.2 h7
  · exact hd

/-- An index that holds a link is in range. -/
theorem lt_length_of_getElem? {l : List Link} {k : Nat} {x : Link} (h : l[k]? = some x) : k < l.length := by
  obtain ⟨h, _⟩ := List.getElem?_eq_some_iff.1 h; exact h

/-- RXB on a link of a machine that meets the invariant (R124). -/
theorem exec_rxb_of_inv {s : State} {k : BitVec 8} {l : Link} (b : Byte) (h : s.Inv) (hl : s.links[k.toNat]? = some l) :
    exec (.rxb k b) s = .next (s.commit k ((l.rxbArm s.params k b).restore s.params)) :=
  State.onLink_next (h.2.1 ▸ lt_length_of_getElem? hl) hl
    (Link.rxb_eq_next.2 ⟨Link.payload_length_of_inv (h.2.2 l (List.mem_of_getElem? hl)), rfl⟩)

/-- TICK on a link of a machine that meets the invariant (R123). -/
theorem exec_tick_of_link {s : State} {k : BitVec 8} {l : Link} (h : s.Inv) (hl : s.links[k.toNat]? = some l) :
    exec (.tick k) s = .next (s.commit k l.tick) := by
  rw [exec_tick]
  exact State.onLink_next (h.2.1 ▸ lt_length_of_getElem? hl) hl rfl

/-- Two lists of commands, one after the other (00_scope.md R10). -/
theorem doAll_append (a b : List Instr) (s : State) :
    doAll (a ++ b) s = (doAll a s).bind fun r => (doAll b r.1).map fun q => (q.1, r.2 ++ q.2) := by
  induction a generalizing s with
  | nil => simp [doAll]
  | cons i a ih =>
    simp only [List.cons_append, doAll]
    cases exec i s with
    | next s1 => simp [ih, Option.map_bind, Option.bind_map, Function.comp_def]
    | fault e => rfl
    | refused e => rfl

/-- The first command of a list that completes. -/
theorem doAll_cons {i : Instr} {s s1 : State} (is : List Instr) (h : exec i s = .next s1) :
    doAll (i :: is) s = (doAll is s1).map fun r => (r.1, (s1.out, s1.note) :: r.2) := by
  simp [doAll, h]

/-- The first command of a list that completes, on the sequence it presents (30_encoding.md R76). -/
theorem doPresented_cons {c : Instr × List Byte} {s s1 : State} (cs : List (Instr × List Byte))
    (h : exec c.1 { s with seq := c.2 } = .next s1) :
    doPresented (c :: cs) s = (doPresented cs s1).map fun r => (r.1, (s1.out, s1.note) :: r.2) := by
  simp [doPresented, h]

section
variable (k : BitVec 8) (is : List Instr)

/-- No command feeds no byte. -/
@[simp] theorem bytesTo_nil : bytesTo k [] = [] := rfl

/-- RXB on link k feeds its byte. -/
@[simp] theorem bytesTo_rxb (b : Byte) : bytesTo k (.rxb k b :: is) = b :: bytesTo k is := by simp [bytesTo]

/-- TICK feeds no byte. -/
@[simp] theorem bytesTo_tick (j : BitVec 8) : bytesTo k (.tick j :: is) = bytesTo k is := rfl

/-- LRESET feeds no byte. -/
@[simp] theorem bytesTo_lreset (j : BitVec 8) : bytesTo k (.lreset j :: is) = bytesTo k is := rfl

/-- A command that is not on link k feeds it no byte (41_parser.md R120). -/
theorem bytesTo_of_link_ne {k : BitVec 8} {i : Instr} (h : i.link? ≠ some k) : bytesTo k (i :: is) = bytesTo k is := by
  cases i <;> simp_all [bytesTo, Instr.link?]
end

/-- The running-CRC picture of an empty link: its register is at the start value (10_state.md R33, 40_checksum.md R102). -/
@[simp] theorem CrcLink.of_idleWith (cd : Nat) :
    CrcLink.of (Link.idleWith cd) =
      { phase := .idle, crc := crcInit, count := 0, low := 0#8, pay := [], cks := [], tlen := 0#16, qid := 0#8, cd := cd } :=
  rfl

/-- The return to IDLE keeps the picture but for the countdown (41_parser.md R121). -/
@[simp] theorem CrcLink.toIdle_of (l : Link) : (CrcLink.of l).toIdle = CrcLink.of (Link.idleWith l.cd) := rfl

/-- No command changes the parameters, the commands to come or the sequence port (10_state.md R27, R31). -/
theorem exec_keeps_ports {i : Instr} {s t : State} (h : exec i s = .next t) :
    t.params = s.params ∧ t.pending = s.pending ∧ t.seq = s.seq := by
  cases hk : i.link? with
  | none =>
    obtain ⟨e, _, rfl⟩ := exec_engine_inversion hk h
    exact ⟨rfl, rfl, rfl⟩
  | some k =>
    obtain ⟨l, r, _, _, _, rfl⟩ := exec_link_inversion hk h
    exact ⟨rfl, rfl, rfl⟩

/-- Feeding bytes is feeding them with no ticks between (30_encoding.md R80). -/
theorem feed_eq_feedWithTicks (k : BitVec 8) (f : List Byte) : feed k f = feedWithTicks k (f.map fun b => (0, b)) := by
  induction f with
  | nil => rfl
  | cons b f ih =>
    simp only [feed, List.map_cons] at *
    rw [ih]
    simp [feedWithTicks]

end Sys2Proof.Machine
end

