-- ==== Sys2Proof/Machine/Flags.lean ====
section
/-!
DEFINITION. The block has no flags and no condition codes (10_state.md R29). What it has in their place are the
numeric codes of phases (R22), drops (60_exceptions.md R181) and rejections (R182).
-/

namespace Sys2Proof.Machine

/-- The 3-bit phase code; codes 5 to 7 are never held (10_state.md R22). -/
def Phase.code : Phase → BitVec 3
  | .idle => 0#3
  | .syncing => 1#3
  | .header => 2#3
  | .payload => 3#3
  | .checksum => 4#3

/-- The code of a drop annotation (60_exceptions.md R181). -/
def Drop.code : Drop → Nat
  | .noise => 1
  | .sync => 2
  | .lenSmall => 3
  | .lenLarge => 4
  | .crc => 5
  | .timeout => 6

/-- The code of a rejection (60_exceptions.md R182). -/
def Reject.code : Reject → Nat
  | .empty => 1
  | .width => 2
  | .tooLarge => 3

end Sys2Proof.Machine
end

