-- ==== Sys2Proof/Tests/Slice0.lean ====
section
/-!
SUPPORT. Tests: expected values are those of 95_test_vectors.md section 2 (instance EX unless said), and for every statement
of the certificates that has hypotheses a witness that they can be met together, at the boundaries of its clauses.
-/

namespace Sys2Proof.Tests

open Sys2Proof.Machine

/-! ### Helpers -/

/-- The power-on state of EX with this record on link 0. -/
def onZero (l : Link) : State := { State.reset with links := [l, Link.reset] }

/-- The power-on state of EX with this record on link 1. -/
def onOne (l : Link) : State := { State.reset with links := [Link.reset, l] }

/-- The power-on state of EX with these bytes on the sequence port. -/
def withSeq (q : List Byte) : State := { State.reset with seq := q }

/-- The power-on state of EX with this command next. -/
def withCommand (w : Word) : State := { State.reset with pending := [{ word := w, seq := [] }] }

/-- Link states of section 2, `cd` last. -/
def syncing (cd : Nat) : Link := { Link.idleWith cd with phase := .syncing, pre := [0xAA#8] }
def header (hdr : List Byte) (tlen : Half) : Link :=
  { Link.idleWith 3 with phase := .header, pre := [0xAA#8, 0x55#8], hdr := hdr, tlen := tlen }
def payload (hdr pay : List Byte) (tlen : Half) (qid : Byte) (cd : Nat) : Link :=
  { phase := .payload, pre := [0xAA#8, 0x55#8], hdr := hdr, pay := pay, cks := [], tlen := tlen, qid := qid, cd := cd }
def checksum (cks : List Byte) : Link :=
  { phase := .checksum, pre := [0xAA#8, 0x55#8], hdr := [0x0A#8, 0x00#8, 0x01#8], pay := [0x01#8, 0x02#8, 0x03#8],
    cks := cks, tlen := 10#16, qid := 1#8, cd := 3 }

/-- The link of W4's frame with one payload byte read. -/
def payloadOne (cd : Nat) : Link := payload [0x0A#8, 0x00#8, 0x01#8] [0x01#8] 10#16 1#8 cd

/-- W4's frame. -/
def frameW4 : List Byte := [0xAA#8, 0x55#8, 0x0A#8, 0x00#8, 0x01#8, 0x01#8, 0x02#8, 0x03#8, 0xDE#8, 0xFE#8]

/-- An outcome as data that can be compared; there are no faults (60_exceptions.md R180). -/
def answer {σ : Type} : Host.Outcome σ Fault Refusal → Except Refusal σ
  | .next t => .ok t
  | .fault e => nomatch e
  | .refused r => .error r

/-- One step of EX on link 0, as its record, event and annotation. -/
def rxb (l : Link) (b : Byte) : Except Refusal LinkStep := answer (l.rxb exampleParams 0#8 b)

/-- What a step leaves on the result port. -/
def shownBy (o : Host.Outcome State Fault Refusal) : Except Refusal Shown := (answer o).map fun t => (t.out, t.note)

/-- The links a step leaves. -/
def linksAfter (o : Host.Outcome State Fault Refusal) : Except Refusal (List Link) := (answer o).map State.links

/-! ### WellFormed: an ill-formed term for its check is refused (R75) -/

theorem test_wellFormed_link : WellFormed 2 (.lreset 1#8) = true ∧ WellFormed 2 (.lreset 2#8) = false ∧
    WellFormed 2 (.tick 1#8) = true ∧ WellFormed 2 (.tick 2#8) = false ∧
    WellFormed 2 (.rxb 1#8 0xFF#8) = true ∧ WellFormed 2 (.rxb 2#8 0xFF#8) = false ∧
    WellFormed 256 (.tick 0xFF#8) = true := by decide

theorem test_wellFormed_engines : WellFormed 1 (.crcu 0xFFFF#16 0xFF#8) = true ∧ WellFormed 1 .crc = true ∧
    WellFormed 1 (.build 0xFF#8) = true := by decide

theorem test_params_ok : exampleParams.ok = true ∧ { exampleParams with maxPacket := 9 }.ok = false ∧
    { exampleParams with maxPacket := 10 }.ok = true ∧ { exampleParams with timeout := 0 }.ok = false ∧
    { exampleParams with timeout := 1 }.ok = true ∧ { exampleParams with numLinks := 0 }.ok = false ∧
    { exampleParams with numLinks := 1 }.ok = true ∧ { exampleParams with numLinks := 256 }.ok = true ∧
    { exampleParams with numLinks := 257 }.ok = false := by decide

/-! ### Decoding (section 2.1) -/

theorem test_decode_link_words :
    decode 2 0x10000000#32 = .ok (.lreset 0#8) ∧ decode 2 0x10100000#32 = .ok (.lreset 1#8) ∧
    decode 2 0x20100000#32 = .ok (.tick 1#8) ∧ decode 2 0x301000AA#32 = .ok (.rxb 1#8 0xAA#8) ∧
    decode 2 0x30000000#32 = .ok (.rxb 0#8 0x00#8) := by decide

theorem test_decode_engine_words :
    decode 2 0x40FFFF00#32 = .ok (.crcu 0xFFFF#16 0x00#8) ∧ decode 2 0x50000000#32 = .ok .crc ∧
    decode 2 0x60000100#32 = .ok (.build 1#8) ∧ decode 2 0x6000FF00#32 = .ok (.build 0xFF#8) := by decide

theorem test_decode_refusals :
    decode 2 0x00000000#32 = .error .reserved ∧ decode 2 0x70000000#32 = .error .reserved ∧
    decode 2 0xF0000000#32 = .error .reserved ∧ decode 2 0x10000001#32 = .error .reserved ∧
    decode 2 0x10200000#32 = .error .noLink ∧ decode 2 0x20001000#32 = .error .reserved ∧
    decode 2 0x30000100#32 = .error .reserved ∧ decode 2 0x41FFFF00#32 = .error .reserved ∧
    decode 2 0x50000100#32 = .error .reserved ∧ decode 2 0x60000101#32 = .error .reserved := by decide

theorem test_encode_words :
    encode (.lreset 1#8) = 0x10100000#32 ∧ encode (.tick 1#8) = 0x20100000#32 ∧ encode (.rxb 1#8 0xAA#8) = 0x301000AA#32 ∧
    encode (.crcu 0xFFFF#16 0x00#8) = 0x40FFFF00#32 ∧ encode .crc = 0x50000000#32 ∧
    encode (.build 0xFF#8) = 0x6000FF00#32 := by decide

theorem test_decodeTableWord :
    decodeTableWord 32 0x10100000 = some (.lreset 1#8) ∧ decodeTableWord 32 0x20000000 = some (.tick 0#8) ∧
    decodeTableWord 32 0x300000AA = some (.rxb 0#8 0xAA#8) ∧ decodeTableWord 32 0x40123456 = some (.crcu 0x1234#16 0x56#8) ∧
    decodeTableWord 32 0x50000000 = some .crc ∧ decodeTableWord 32 0x6000FF00 = some (.build 0xFF#8) ∧
    decodeTableWord 32 0x70000000 = none := by decide

/-- The first step after reset runs the word given to the fetch. -/
theorem test_step_fetch_word :
    answer (step (State.reset.withFetchWord 32 0x301000AA)) = answer (exec (.rxb 1#8 0xAA#8) State.reset) ∧
    shownBy (step (State.reset.withFetchWord 32 0x50000000)) = .ok (some (.crcOut 0xFFFF#16), none) ∧
    answer (step (State.reset.withFetchWord 32 0x70000000)) = .error .reserved ∧
    answer (step (State.reset.withFetchWord 32 0x10200000)) = .error .noLink ∧
    answer (step State.reset) = .ok State.reset := by decide

/-! ### CRCU and CRC (sections 2.2 and 2.3) -/

theorem test_crcu :
    shownBy (exec (.crcu 0xFFFF#16 0x00#8) State.reset) = .ok (some (.crcOut 0x40BF#16), none) ∧
    crcu 0xFFFF#16 0x01#8 = 0x807E#16 ∧ crcu 0xFFFF#16 0xFF#8 = 0x00FF#16 ∧ crcu 0x0000#16 0x00#8 = 0x0000#16 ∧
    crcu 0x0000#16 0x01#8 = 0xC0C1#16 ∧ crcu 0x1234#16 0x56#8 = 0xE993#16 := by decide

theorem test_crc :
    shownBy (exec .crc (withSeq [0x31#8, 0x32#8, 0x33#8, 0x34#8, 0x35#8, 0x36#8, 0x37#8, 0x38#8, 0x39#8])) =
      .ok (some (.crcOut 0x4B37#16), none) ∧
    crc16 [0xAA#8, 0x55#8] = 0x2FBF#16 ∧ crc16 [0xAA#8, 0x55#8, 0x08#8, 0x00#8, 0x05#8, 0x42#8] = 0x1C95#16 := by decide

theorem test_crc_frames :
    crc16 [] = 0xFFFF#16 ∧ crc16 [0x00#8] = 0x40BF#16 ∧ crc16 [0x01#8] = 0x807E#16 ∧ crc16 [0xFF#8] = 0x00FF#16 ∧
    crc16 [0xAA#8, 0x55#8, 0x0A#8, 0x00#8, 0x01#8, 0x01#8, 0x02#8, 0x03#8] = 0xFEDE#16 ∧
    crc16 [0xAA#8, 0x55#8, 0x08#8, 0x00#8, 0x00#8, 0x00#8] = 0x7D16#16 := by decide

/-! ### LRESET and TICK (sections 2.4 and 2.5) -/

theorem test_lreset :
    answer (exec (.lreset 0#8) (onZero (payloadOne 2))) = .ok State.reset ∧
    answer (exec (.lreset 0#8) (onZero (Link.idleWith 3))) = .ok State.reset := by decide

theorem test_tick :
    (payloadOne 3).tick = (payloadOne 2).quiet ∧
    (payloadOne 1).tick = { link := Link.reset, out := none, note := some .timeout } ∧
    (syncing 1).tick = { link := Link.reset, out := none, note := some .timeout } ∧
    (Link.idleWith 1).tick = Link.reset.quiet ∧ (Link.idleWith 0).tick = Link.reset.quiet := by decide

theorem test_tick_step : linksAfter (exec (.tick 1#8) (onOne (payloadOne 3))) = .ok [Link.reset, payloadOne 2] := by decide

/-! ### RXB (section 2.6) -/

theorem test_rxb_head :
    rxb Link.reset 0xAA#8 = .ok (syncing 3).quiet ∧
    rxb Link.reset 0x55#8 = .ok ((Link.idleWith 3).annotate .noise) ∧
    rxb Link.reset 0x00#8 = .ok ((Link.idleWith 3).annotate .noise) ∧
    rxb (syncing 1) 0x55#8 = .ok (header [] 0#16).quiet ∧
    rxb (syncing 1) 0xAA#8 = .ok ((Link.idleWith 3).annotate .sync) ∧
    rxb (syncing 1) 0x54#8 = .ok ((Link.idleWith 3).annotate .sync) ∧
    rxb (header [] 0#16) 0xFF#8 = .ok (header [0xFF#8] 0#16).quiet ∧
    rxb (header [0x00#8] 0#16) 0x00#8 = .ok ((Link.idleWith 3).annotate .lenSmall) ∧
    rxb (header [0x07#8] 0#16) 0x00#8 = .ok ((Link.idleWith 3).annotate .lenSmall) ∧
    rxb (header [0x08#8] 0#16) 0x00#8 = .ok (header [0x08#8, 0x00#8] 8#16).quiet ∧
    rxb (header [0x3E#8] 0#16) 0x00#8 = .ok (header [0x3E#8, 0x00#8] 62#16).quiet ∧
    rxb (header [0x3F#8] 0#16) 0x00#8 = .ok ((Link.idleWith 3).annotate .lenLarge) ∧
    rxb (header [0x40#8] 0#16) 0x00#8 = .ok ((Link.idleWith 3).annotate .lenLarge) ∧
    rxb (header [0x08#8] 0#16) 0x01#8 = .ok ((Link.idleWith 3).annotate .lenLarge) ∧
    rxb (header [0x0A#8, 0x00#8] 10#16) 0xFF#8 = .ok (payload [0x0A#8, 0x00#8, 0xFF#8] [] 10#16 0xFF#8 3).quiet := by decide

theorem test_rxb_body :
    rxb (payload [0x0A#8, 0x00#8, 0x01#8] [] 10#16 1#8 1) 0xAA#8 =
      .ok (payload [0x0A#8, 0x00#8, 0x01#8] [0xAA#8] 10#16 1#8 3).quiet ∧
    rxb (payload [0x0A#8, 0x00#8, 0x01#8] [0x01#8, 0x02#8] 10#16 1#8 2) 0x03#8 = .ok (checksum []).quiet ∧
    rxb (payload [0x08#8, 0x00#8, 0x05#8] [] 8#16 5#8 3) 0x42#8 =
      .ok { payload [0x08#8, 0x00#8, 0x05#8] [0x42#8] 8#16 5#8 3 with phase := .checksum }.quiet ∧
    rxb (checksum []) 0xDE#8 = .ok (checksum [0xDE#8]).quiet ∧
    rxb (checksum [0xDE#8]) 0xFE#8 =
      .ok { link := Link.idleWith 3, out := some (.deliver 0#8 1#8 [0x01#8, 0x02#8, 0x03#8]), note := none } ∧
    rxb (checksum [0xDE#8]) 0xFF#8 = .ok ((Link.idleWith 3).annotate .crc) ∧
    rxb (checksum [0xFE#8]) 0xDE#8 = .ok ((Link.idleWith 3).annotate .crc) := by decide

/-! ### BUILD (sections 2.7 and 2.8) -/

theorem test_build :
    shownBy (exec (.build 1#8) (withSeq [0x01#8, 0x02#8, 0x03#8])) = .ok (some (.frame frameW4), none) ∧
    buildEvent exampleParams 0#8 [0x00#8] =
      .frame [0xAA#8, 0x55#8, 0x08#8, 0x00#8, 0x00#8, 0x00#8, 0x16#8, 0x7D#8] ∧
    buildEvent exampleParams 0xFF#8 [0xFF#8] =
      .frame [0xAA#8, 0x55#8, 0x08#8, 0x00#8, 0xFF#8, 0xFF#8, 0x17#8, 0xCD#8] ∧
    buildEvent exampleParams 9#8 [0xAA#8, 0x55#8, 0xAA#8] =
      .frame [0xAA#8, 0x55#8, 0x0A#8, 0x00#8, 0x09#8, 0xAA#8, 0x55#8, 0xAA#8, 0x53#8, 0x30#8] ∧
    buildEvent { exampleParams with p0 := 0x7E#8, p1 := 0x7E#8 } 1#8 [0x01#8, 0x02#8, 0x03#8] =
      .frame [0x7E#8, 0x7E#8, 0x0A#8, 0x00#8, 0x01#8, 0x01#8, 0x02#8, 0x03#8, 0x49#8, 0x53#8] := by decide

theorem test_build_bounds :
    buildEvent exampleParams 2#8 [] = .reject .empty ∧
    buildEvent exampleParams 3#8 (List.replicate 55 0#8) =
      .frame ([0xAA#8, 0x55#8, 0x3E#8, 0x00#8, 0x03#8] ++ List.replicate 55 0#8 ++ [0x2E#8, 0xE6#8]) ∧
    buildEvent exampleParams 3#8 (List.replicate 56 0#8) = .reject .tooLarge := by decide +kernel

theorem test_build_width :
    buildEvent exampleParams 1#8 (List.replicate 65528 0#8) = .reject .tooLarge ∧
    buildEvent exampleParams 1#8 (List.replicate 65529 0#8) = .reject .width := by
  constructor <;> simp only [buildEvent, List.length_replicate] <;> decide

/-! ### Codes (10_state.md R22, 60_exceptions.md R181, R182) -/

theorem test_codes :
    [Phase.idle, .syncing, .header, .payload, .checksum].map Phase.code = [0#3, 1#3, 2#3, 3#3, 4#3] ∧
    [Drop.noise, .sync, .lenSmall, .lenLarge, .crc, .timeout].map Drop.code = [1, 2, 3, 4, 5, 6] ∧
    [Reject.empty, .width, .tooLarge].map Reject.code = [1, 2, 3] := by decide

/-! ### Assembler (30_encoding.md R79, R80, and the programs of section 3) -/

/-- `CYCLE 0, [AA 55]`, program P1. -/
theorem test_assemble_cycle :
    assembleLine ['C', 'Y', 'C', 'L', 'E', ' ', '0', ',', ' ', '[', 'A', 'A', ' ', '5', '5', ']'] =
      some [plainCommand (.tick 0#8), plainCommand (.rxb 0#8 0xAA#8), plainCommand (.rxb 0#8 0x55#8)] := by decide

/-- `WAIT 0, 2 ; slow` with a comment, program P4. -/
theorem test_assemble_wait :
    assembleLine ['W', 'A', 'I', 'T', ' ', '0', ',', ' ', '2', ' ', ';', 's'] =
      some [plainCommand (.tick 0#8), plainCommand (.tick 0#8)] := by decide

/-- `BUILD 1, [01 02]`, and a byte too wide for its field. -/
theorem test_assemble_build :
    assembleLine ['B', 'U', 'I', 'L', 'D', ' ', '1', ',', ' ', '[', '0', '1', ' ', '0', '2', ']'] =
      some [{ word := 0x60000100#32, seq := [0x01#8, 0x02#8] }] ∧
    assembleLine ['R', 'X', 'B', ' ', '0', ',', ' ', '0', 'x', '1', '0', '0'] = none := by decide

/-! ### Witnesses: the hypotheses of each statement that has some, met together -/

theorem test_witness_decodeOfEncode :
    WellFormed 2 (.rxb 1#8 0xAA#8) = true ∧ WellFormed 256 (.lreset 0xFF#8) = true ∧
    WellFormed 0 (.crcu 0xFFFF#16 0xFF#8) = true := by decide

theorem test_witness_encodeOfDecode : decode 2 0x301000AA#32 = .ok (.rxb 1#8 0xAA#8) := by decide

/-- Opcodes 0, 7 and 15 and words for each must-be-zero field. -/
theorem test_witness_reservedWords :
    (withCommand 0x70000000#32).params.ok = true ∧
    (withCommand 0x70000000#32).pending = [{ word := 0x70000000#32, seq := [] }] ∧
    [0x00000000#32, 0x70000000#32, 0xF0000000#32, 0x10080000#32, 0x20000001#32, 0x30080000#32, 0x30000100#32, 0x41000000#32,
        0x58000000#32, 0x50000001#32, 0x68000000#32, 0x60010000#32, 0x60000080#32].map decodeWord =
      List.replicate 13 (.error .reserved) := by decide +kernel

theorem test_witness_reservedWords_decode : ∀ n, decode n 0x70000000#32 = .error .reserved := fun _ => rfl

theorem test_witness_noLinkWords :
    (withCommand 0x10200000#32).params.ok = true ∧ (withCommand 0x10200000#32).params.numLinks = 2 ∧
    (withCommand 0x10200000#32).pending = [{ word := 0x10200000#32, seq := [] }] ∧
    decode 2 0x10200000#32 = .error .noLink ∧ decode 2 0x2FF00000#32 = .error .noLink := by decide

theorem test_witness_stepRunsDecodedCommand :
    (withCommand 0x301000AA#32).params.ok = true ∧
    (withCommand 0x301000AA#32).pending = [{ word := 0x301000AA#32, seq := [] }] ∧
    decode (withCommand 0x301000AA#32).params.numLinks 0x301000AA#32 = .ok (.rxb 1#8 0xAA#8) := by decide

theorem test_witness_pseudoCommands : (1#8).toNat < 2 ∧ (255#8).toNat < 256 := by decide

theorem test_witness_stepWithoutCommand : State.reset.params.ok = true ∧ State.reset.pending = [] := by decide

theorem test_witness_pendingCommands :
    (withCommand 0x30000055#32).params.ok = true ∧
    (∀ i ∈ [Instr.rxb 0#8 0x55#8], WellFormed (withCommand 0x30000055#32).params.numLinks i = true) ∧
    (withCommand 0x30000055#32).pending =
      [Instr.rxb 0#8 0x55#8].map (fun i => { word := encode i, seq := (withCommand 0x30000055#32).seq }) ++ [] := by decide

/-- Two CRCs that present different sequences, and a BUILD. -/
def presented : List (Instr × List Byte) := [(.crc, []), (.crc, [0x00#8]), (.build 5#8, [])]

/-- The power-on state of EX with those commands next. -/
def withPresented : State :=
  { State.reset with pending := presented.map (fun c => { word := encode c.1, seq := c.2 }) ++ [] }

theorem test_witness_pendingSequences :
    withPresented.params.ok = true ∧ (∀ c ∈ presented, WellFormed withPresented.params.numLinks c.1 = true) ∧
    withPresented.pending = presented.map (fun c => { word := encode c.1, seq := c.2 }) ++ [] := by decide

/-- Each shows the result of its own sequence, in issue order (R102, R160). -/
theorem test_presented_order :
    (doPresented presented State.reset).map Prod.snd =
      some [(some (.crcOut 0xFFFF#16), none), (some (.crcOut 0x40BF#16), none), (some (.reject .empty), none)] := by decide

theorem test_witness_powerOn : exampleParams.ok = true := by decide

/-- How long the sequence port's bytes are. -/
theorem length_withSeq (n : Nat) : (withSeq (List.replicate n 0#8)).seq.length = n := List.length_replicate

theorem test_witness_crcSequence :
    (withSeq []).seq = [] ∧ (withSeq [0x31#8]).seq.length ≤ 65535 ∧ (withSeq (List.replicate 65535 0#8)).seq.length ≤ 65535 := by
  rw [length_withSeq]
  exact ⟨rfl, by decide, by omega⟩

theorem test_witness_overlong : 65535 < (withSeq (List.replicate 65536 0#8)).seq.length := by
  rw [length_withSeq]
  omega

theorem test_witness_engines :
    Instr.crc.link? = none ∧ answer (exec .crc State.reset) = .ok (State.reset.result (.crcOut 0xFFFF#16)) ∧
    (onZero (syncing 1)).params = State.reset.params ∧ (onZero (syncing 1)).seq = State.reset.seq := by decide

/-- Bit 7 of the last covered byte. -/
theorem test_witness_singleBit_covered :
    (0#8).toNat < (onZero (checksum [])).params.numLinks ∧ 7 < frameW4.length ∧ 7 < 8 ∧
    (let m := frameW4.take 8
     let l := { checksum [lo (crc16 m)] with pay := [0x01#8, 0x02#8, 0x83#8] }
     (onZero l).links[(0#8).toNat]? = some l ∧ l.phase = .checksum ∧
       l.pre ++ l.hdr ++ l.pay = m.set 7 (m.getD 7 0#8 ^^^ (1#8 <<< 7)) ∧ l.cks = [lo (crc16 m)]) := by decide

/-- Bits 0 and 15 of the CRC field. -/
theorem test_witness_singleBit_field :
    (0 : Nat) < 16 ∧ 15 < 16 ∧
    (∀ j ∈ [0, 15],
      let l := checksum [lo (0xFEDE#16 ^^^ (1#16 <<< j))]
      (onZero l).links[(0#8).toNat]? = some l ∧ l.phase = .checksum ∧
        0xFEDE#16 ^^^ (1#16 <<< j) = crc16 (l.pre ++ l.hdr ++ l.pay) ^^^ (1#16 <<< j)) := by decide

theorem test_witness_lreset :
    (1#8).toNat < (onOne (payloadOne 2)).params.numLinks ∧
    (onOne (payloadOne 2)).links[(1#8).toNat]? = some (payloadOne 2) := by decide

/-- Countdowns 0, 2 and TIMEOUT, and 1 in and outside IDLE. -/
theorem test_witness_tick :
    (1#8).toNat < State.reset.params.numLinks ∧
    (∀ l ∈ [Link.idleWith 0, payloadOne 2, payloadOne 3, payloadOne 1, Link.idleWith 1],
      (onOne l).links[(1#8).toNat]? = some l) ∧
    (Link.idleWith 0).cd = 0 ∧ 2 ≤ (payloadOne 2).cd ∧ 2 ≤ (payloadOne 3).cd ∧
    ((payloadOne 1).cd = 1 ∧ (payloadOne 1).phase ≠ .idle) ∧
    ((Link.idleWith 1).cd = 1 ∧ (Link.idleWith 1).phase = .idle) := by decide

theorem test_witness_rxbIdle :
    (1#8).toNat < State.reset.params.numLinks ∧ State.reset.links[(1#8).toNat]? = some Link.reset ∧
    Link.reset.phase = .idle ∧ 0xAA#8 = State.reset.params.p0 ∧ 0x55#8 ≠ State.reset.params.p0 := by decide

theorem test_witness_rxbSyncing :
    (1#8).toNat < State.reset.params.numLinks ∧
    (onOne (syncing 1)).links[(1#8).toNat]? = some (syncing 1) ∧ (syncing 1).phase = .syncing ∧
    (syncing 1).pre ++ [0x55#8] = [State.reset.params.p0, State.reset.params.p1] ∧
    ((syncing 1).pre.length = 1 ∧ (syncing 1).pre ++ [0xAA#8] ≠ [State.reset.params.p0, State.reset.params.p1]) := by decide

/-- Lengths 0, 7, 8, 62 and 63, and the other header bytes. -/
theorem test_witness_rxbHeader :
    (1#8).toNat < State.reset.params.numLinks ∧
    (∀ h ∈ [[], [0x00#8], [0x07#8], [0x08#8], [0x3E#8], [0x3F#8], [0x0A#8, 0x00#8]],
      (onOne (header h 0#16)).links[(1#8).toNat]? = some (header h 0#16) ∧ (header h 0#16).phase = .header) ∧
    (0x07#8).toNat + 256 * (0x00#8).toNat ≤ 7 ∧
    (7 < (0x3F#8).toNat + 256 * (0x00#8).toNat ∧
      State.reset.params.maxPacket - 2 < (0x3F#8).toNat + 256 * (0x00#8).toNat) ∧
    (∀ a ∈ [0x08#8, 0x3E#8], 7 < a.toNat + 256 * (0x00#8).toNat ∧
      a.toNat + 256 * (0x00#8).toNat ≤ State.reset.params.maxPacket - 2) ∧
    (header [0x0A#8, 0x00#8] 10#16).hdr.length = 2 ∧
    (header [] 0#16).hdr = [] := by decide

/-- The last payload byte, of one and of three, and an earlier one. -/
theorem test_witness_rxbPayload :
    (1#8).toNat < State.reset.params.numLinks ∧
    (∀ l ∈ [payload [0x08#8, 0x00#8, 0x05#8] [] 8#16 5#8 3, payload [0x0A#8, 0x00#8, 0x01#8] [0x01#8, 0x02#8] 10#16 1#8 3],
      (onOne l).links[(1#8).toNat]? = some l ∧ l.phase = .payload ∧ 7 < l.tlen.toNat ∧
        l.pay.length + 1 = l.tlen.toNat - 7) ∧
    ((onOne (payloadOne 3)).links[(1#8).toNat]? = some (payloadOne 3) ∧ (payloadOne 3).phase = .payload ∧
      7 < (payloadOne 3).tlen.toNat ∧ (payloadOne 3).pay.length + 1 ≠ (payloadOne 3).tlen.toNat - 7) := by decide

/-- Lengths 7 and 8. -/
theorem test_witness_undefinedPayload :
    (1#8).toNat < State.reset.params.numLinks ∧
    ((onOne (payload [] [] 7#16 0#8 3)).links[(1#8).toNat]? = some (payload [] [] 7#16 0#8 3) ∧
      (payload [] [] 7#16 0#8 3).phase = .payload ∧ (payload [] [] 7#16 0#8 3).tlen.toNat ≤ 7) ∧
    ((onOne (payload [] [] 8#16 0#8 3)).links[(1#8).toNat]? = some (payload [] [] 8#16 0#8 3) ∧
      (payload [] [] 8#16 0#8 3).phase = .payload ∧ ¬(payload [] [] 8#16 0#8 3).tlen.toNat ≤ 7) := by decide

theorem test_witness_rxbChecksum :
    (1#8).toNat < State.reset.params.numLinks ∧
    (∀ c ∈ [[], [0xDE#8]], (onOne (checksum c)).links[(1#8).toNat]? = some (checksum c) ∧ (checksum c).phase = .checksum) ∧
    (let l := checksum [0xDE#8]
     (0xDE#8).toNat + 256 * (0xFE#8).toNat = (crc16 (l.pre ++ l.hdr ++ l.pay)).toNat ∧
       (0xDE#8).toNat + 256 * (0xFF#8).toNat ≠ (crc16 (l.pre ++ l.hdr ++ l.pay)).toNat) ∧
    (checksum []).cks = [] := by decide

/-- No preamble byte and two, three header bytes, two checksum bytes: states that no run reaches. -/
theorem test_witness_unreachableBuffers :
    (1#8).toNat < State.reset.params.numLinks ∧
    (∀ pre ∈ [[], [0xAA#8, 0x55#8]],
      let l := { syncing 1 with pre := pre }
      (onOne l).links[(1#8).toNat]? = some l ∧ l.phase = .syncing ∧ l.pre.length ≠ 1) ∧
    (let l := header [0x0A#8, 0x00#8, 0x01#8] 10#16
     (onOne l).links[(1#8).toNat]? = some l ∧ l.phase = .header ∧ 3 ≤ l.hdr.length) ∧
    (let l := checksum [0xDE#8, 0xFE#8]
     (onOne l).links[(1#8).toNat]? = some l ∧ l.phase = .checksum ∧ 2 ≤ l.cks.length) := by decide

theorem test_witness_everyByte :
    answer (exec (.rxb 1#8 0x55#8) (onOne (syncing 1))) =
      .ok { onOne (syncing 1) with links := [Link.reset, header [] 0#16] } := by decide

theorem test_witness_noLink : State.reset.params.numLinks ≤ (2#8).toNat := by decide

theorem test_witness_touchOneLink :
    (Instr.tick 1#8).link? = some 1#8 ∧
    answer (exec (.tick 1#8) (onOne (payloadOne 3))) = .ok (onOne (payloadOne 2)) ∧
    (let s' : State := { onOne (payloadOne 3) with links := [syncing 1, payloadOne 3] }
     s'.params = (onOne (payloadOne 3)).params ∧ s'.links[(1#8).toNat]? = (onOne (payloadOne 3)).links[(1#8).toNat]?) ∧
    Instr.crc.link? = none ∧
    answer (exec .crc (onOne (payloadOne 3))) = .ok ((onOne (payloadOne 3)).result (.crcOut 0xFFFF#16)) := by decide

/-- A state of R24's table in each phase. -/
theorem test_witness_inv :
    State.reset.Inv ∧ (onZero (syncing 1)).Inv ∧ (onZero (header [0x3E#8, 0x00#8] 62#16)).Inv ∧ (onZero (payloadOne 1)).Inv ∧
    (onZero (checksum [0xDE#8])).Inv := by decide

/-- A state that is not of R24's table, for each phase. -/
theorem test_inv_refuses :
    ¬(onZero { Link.reset with tlen := 1#16 }).Inv ∧ ¬(onZero (syncing 0)).Inv ∧ ¬(onZero (syncing 4)).Inv ∧
    ¬(onZero (header [0x3F#8, 0x00#8] 63#16)).Inv ∧ ¬(onZero { payloadOne 1 with qid := 2#8 }).Inv ∧
    ¬(onZero (checksum [0xDE#8, 0xFE#8])).Inv := by decide

theorem test_witness_everyCommandCompletes :
    (onZero (payloadOne 1)).Inv ∧ WellFormed (onZero (payloadOne 1)).params.numLinks (.rxb 0#8 0x02#8) = true ∧
    (onZero (payloadOne 1)).seq.length ≤ 65535 := by decide

theorem test_witness_stepKeeps :
    ({ onZero (payloadOne 1) with pending := [{ word := 0x30000002#32, seq := [] }] } : State).Inv ∧
    answer (step { onZero (payloadOne 1) with pending := [{ word := 0x30000002#32, seq := [] }] }) =
      .ok (onZero { payloadOne 3 with pay := [0x01#8, 0x02#8] }) := by decide

theorem test_witness_phase :
    answer (exec (.rxb 0#8 0x55#8) (onZero (syncing 1))) = .ok (onZero (header [] 0#16)) ∧
    (onZero (syncing 1)).links[0]? = some (syncing 1) ∧ (onZero (header [] 0#16)).links[0]? = some (header [] 0#16) := by decide

theorem test_witness_delivery :
    answer (exec (.rxb 0#8 0xFE#8) (onZero (checksum [0xDE#8]))) =
      .ok { onZero (Link.idleWith 3) with out := some (.deliver 0#8 1#8 [0x01#8, 0x02#8, 0x03#8]) } := by decide

/-- Payloads of 1 and, up to the bound of EX, 55 bytes; the last byte is the CRC's. -/
theorem test_witness_payloadBounds :
    ∀ n ∈ [1, 55],
      let m := [0xAA#8, 0x55#8, BitVec.ofNat 8 (n + 7), 0x00#8, 0x03#8] ++ List.replicate n 0x00#8
      let l : Link := { phase := .checksum, pre := m.take 2, hdr := (m.drop 2).take 3, pay := m.drop 5, cks := [lo (crc16 m)],
                        tlen := BitVec.ofNat 16 (n + 7), qid := 3#8, cd := 1 }
      (onZero l).Inv ∧
        shownBy (exec (.rxb 0#8 (hi (crc16 m))) (onZero l)) = .ok (some (.deliver 0#8 3#8 (List.replicate n 0x00#8)), none) := by
  decide +kernel

/-- Each of the six annotations is shown by some step. -/
theorem test_witness_drops :
    shownBy (exec (.rxb 0#8 0x55#8) State.reset) = .ok (none, some .noise) ∧
    shownBy (exec (.rxb 0#8 0xAA#8) (onZero (syncing 1))) = .ok (none, some .sync) ∧
    shownBy (exec (.rxb 0#8 0x00#8) (onZero (header [0x07#8] 0#16))) = .ok (none, some .lenSmall) ∧
    shownBy (exec (.rxb 0#8 0x00#8) (onZero (header [0x3F#8] 0#16))) = .ok (none, some .lenLarge) ∧
    shownBy (exec (.rxb 0#8 0xFF#8) (onZero (checksum [0xDE#8]))) = .ok (none, some .crc) ∧
    shownBy (exec (.tick 0#8) (onZero (payloadOne 1))) = .ok (none, some .timeout) := by decide

theorem test_witness_headerTests : (header [0x07#8] 0#16).phase = .header := by decide

/-- A header byte in, neither field is written. -/
theorem test_witness_unwrittenFields :
    (header [0x0A#8] 0#16).Inv exampleParams ∧ (header [0x0A#8] 0#16).alike { header [0x0A#8] 77#16 with qid := 9#8 } := by
  refine ⟨by decide, rfl, ?_, ?_⟩ <;> simp [Link.tlenWritten, Link.qidWritten, header]

theorem test_witness_idleCountdown :
    (onZero (Link.idleWith 1)).links[(0#8).toNat]? = some (Link.idleWith 1) ∧
    doAll [.tick 0#8] (onZero (Link.idleWith 1)) = some (onZero Link.reset, [silent]) ∧
    doAll [.tick 0#8]
        { onZero (Link.idleWith 1) with links := (onZero (Link.idleWith 1)).links.set (0#8).toNat (Link.idleWith 3) } =
      some (onZero (Link.idleWith 2), [silent]) := by decide

/-- W4's frame with two ticks, TIMEOUT less one, in a gap. -/
theorem test_witness_acceptedFrame :
    State.reset.Inv ∧ (0#8).toNat < State.reset.params.numLinks ∧ State.reset.links[(0#8).toNat]? = some Link.reset ∧
    Link.reset.phase = .idle ∧ Accepted State.reset.params frameW4 1#8 [0x01#8, 0x02#8, 0x03#8] ∧
    (frameW4.map fun b => (2, b)).map Prod.snd = frameW4 ∧ gapsShort State.reset.params (frameW4.map fun b => (2, b)) := by
  refine ⟨by decide, by decide, by decide, by decide, ?_, by decide, ?_⟩
  · unfold Accepted headOk frameLength
    decide
  · unfold gapsShort
    decide

/-- The shortest and the longest accepted length, their frames cut after one byte and before the last. -/
theorem test_witness_truncatedFrame :
    State.reset.Inv ∧ (0#8).toNat < State.reset.params.numLinks ∧ State.reset.links[(0#8).toNat]? = some Link.reset ∧
    Link.reset.phase = .idle ∧
    (let f := frameW4.take 9
     0 < f.length ∧ f.getD 0 0#8 = exampleParams.p0 ∧ f.getD 1 0#8 = exampleParams.p1 ∧ 7 < frameLength f ∧
       frameLength f ≤ exampleParams.maxPacket - 2 ∧ f.length < frameLength f) ∧
    (let f := [0xAA#8, 0x55#8, 0x3E#8, 0x00#8]
     7 < frameLength f ∧ frameLength f ≤ exampleParams.maxPacket - 2 ∧ f.length < frameLength f) ∧
    (let f := [0xAA#8]
     0 < f.length ∧ f.getD 0 0#8 = exampleParams.p0 ∧ ¬1 < f.length ∧ ¬3 < f.length) := by decide

theorem test_witness_badPreamble :
    State.reset.Inv ∧ (0#8).toNat < State.reset.params.numLinks ∧ State.reset.links[(0#8).toNat]? = some Link.reset ∧
    Link.reset.phase = .idle ∧ 0xAA#8 ≠ State.reset.params.p1 := by decide

theorem test_witness_noRescan :
    State.reset.Inv ∧ (0#8).toNat < State.reset.params.numLinks ∧ State.reset.links[(0#8).toNat]? = some Link.reset ∧
    Link.reset.phase = .idle ∧ 0xAA#8 ≠ State.reset.params.p1 := by decide

/-- Lengths 7 and 63. -/
theorem test_witness_badLength :
    State.reset.Inv ∧ (0#8).toNat < State.reset.params.numLinks ∧ State.reset.links[(0#8).toNat]? = some Link.reset ∧
    Link.reset.phase = .idle ∧ (0x07#8).toNat + 256 * (0x00#8).toNat ≤ 7 ∧
    State.reset.params.maxPacket - 2 < (0x3F#8).toNat + 256 * (0x00#8).toNat := by decide

theorem test_witness_badCrc :
    State.reset.Inv ∧ (0#8).toNat < State.reset.params.numLinks ∧ State.reset.links[(0#8).toNat]? = some Link.reset ∧
    Link.reset.phase = .idle ∧
    (let f := frameW4.take 9 ++ [0xFF#8]
     headOk State.reset.params f ∧ f.length = frameLength f ∧
       f.drop (f.length - 2) ≠ le16 (crc16 (f.take (f.length - 2)))) := by
  unfold headOk
  decide

/-- W4's frame with a tick before each byte, after a frame that a reset cut short and a command on the other link. -/
def mixedRun : List Instr :=
  [.rxb 0#8 0xAA#8, .lreset 0#8, .rxb 1#8 0xAA#8] ++ feedWithTicks 0#8 (frameW4.map fun b => (1, b))

theorem test_witness_deliveries :
    State.reset.Inv ∧ State.reset.links[(0#8).toNat]? = some Link.reset ∧ Link.reset.phase = .idle ∧
    (doAll mixedRun State.reset).map (fun r => r.2[22]?) =
      some (some (some (.deliver 0#8 1#8 [0x01#8, 0x02#8, 0x03#8]), none)) := by decide

theorem test_bytesTo : bytesTo 0#8 mixedRun = 0xAA#8 :: frameW4 := by decide

theorem test_witness_silence : (onZero (checksum [])).Inv ∧ (0#8).toNat < (onZero (checksum [])).params.numLinks := by decide

theorem test_witness_timeout :
    State.reset.Inv ∧ answer (exec (.rxb 0#8 0xAA#8) State.reset) = .ok (onZero (syncing 3)) ∧
    (onZero (syncing 3)).links[(0#8).toNat]? = some (syncing 3) ∧ (syncing 3).phase ≠ .idle := by decide

/-- The same commands for link 1, others for link 0. -/
theorem test_witness_isolation :
    (onOne (syncing 1)).params = State.reset.params ∧
    (onOne (syncing 1)).links[(1#8).toNat]? =
      ({ onOne (syncing 1) with links := [payloadOne 1, syncing 1] } : State).links[(1#8).toNat]? ∧
    [Instr.rxb 0#8 0xAA#8, .tick 1#8].filter (fun i => i.link? == some 1#8) =
      [Instr.tick 1#8, .tick 0#8].filter (fun i => i.link? == some 1#8) ∧
    (doAll [.rxb 0#8 0xAA#8, .tick 1#8] (onOne (syncing 1))).isSome = true ∧
    (doAll [.tick 1#8, .tick 0#8] { onOne (syncing 1) with links := [payloadOne 1, syncing 1] }).isSome = true := by decide

theorem test_witness_expiringCycle :
    (0#8).toNat < (onZero (payloadOne 1)).params.numLinks ∧
    (onZero (payloadOne 1)).links[(0#8).toNat]? = some (payloadOne 1) ∧ (payloadOne 1).phase ≠ .idle ∧ (payloadOne 1).cd = 1 := by
  decide

theorem test_witness_restorePerByte : [0xAA#8, 0x55#8] ≠ [] := by decide

theorem test_witness_runningCrc :
    (checksum [0xDE#8]).Inv exampleParams ∧ (onOne (payloadOne 1)).Inv ∧
    (onOne (payloadOne 1)).links[(1#8).toNat]? = some (payloadOne 1) ∧
    (doAll [.rxb 0#8 0xAA#8, .rxb 1#8 0x02#8, .tick 1#8, .lreset 1#8] (onOne (payloadOne 1))).isSome = true := by decide

/-- A timeout restarts the running register (R33, R102, R123). -/
theorem test_runningCrc_timeout :
    (CrcLink.of (syncing 1)).crc ≠ 0xFFFF#16 ∧
    (CrcLink.of (syncing 1)).tick = (CrcLink.of Link.reset, (none, some .timeout)) ∧
    (CrcLink.of Link.reset).crc = 0xFFFF#16 := by decide

/-- Payloads of 1 and of 55 bytes. -/
theorem test_witness_buildFrame :
    ∀ n ∈ [1, 55],
      let s := withSeq (List.replicate n 0#8)
      s.seq.length ≤ 65535 ∧ s.seq ≠ [] ∧ s.seq.length + 7 ≤ 65535 ∧ s.seq.length + 7 ≤ s.params.maxPacket - 2 := by decide

/-- Payloads of 0, 56, 65528 and 65529 bytes. -/
theorem test_witness_buildRejects :
    (withSeq []).seq = [] ∧
    (65529 ≤ (withSeq (List.replicate 65529 0#8)).seq.length ∧ (withSeq (List.replicate 65529 0#8)).seq.length ≤ 65535) ∧
    (∀ n ∈ [56, 65528], 0 < (withSeq (List.replicate n 0#8)).seq.length ∧
      (withSeq (List.replicate n 0#8)).seq.length + 7 ≤ 65535 ∧
      exampleParams.maxPacket - 2 < (withSeq (List.replicate n 0#8)).seq.length + 7) := by
  simp only [length_withSeq]
  exact ⟨rfl, by omega, by decide⟩

theorem test_witness_builtFrames :
    answer (exec (.build 1#8) (withSeq [0x01#8, 0x02#8, 0x03#8])) =
      .ok ((withSeq [0x01#8, 0x02#8, 0x03#8]).result (.frame frameW4)) := by decide

/-- Payloads of 0, 1, 55 and 56 bytes. -/
theorem test_witness_builderBounds :
    (0#8).toNat < State.reset.params.numLinks ∧
    (∀ n ∈ [0, 1, 55, 56],
      let l := header [BitVec.ofNat 8 (n + 7)] 0#16
      let s := { onZero l with seq := List.replicate n 0#8 }
      s.seq.length ≤ 65535 ∧ s.links[(0#8).toNat]? = some l ∧ l.phase = .header ∧
        l.hdr = [BitVec.ofNat 8 (s.seq.length + 7)]) := by decide

/-- Payloads of 1 and of MAX_PAYLOAD bytes. -/
theorem test_witness_roundTrip :
    (∀ n ∈ [1, 55],
      let s := withSeq (List.replicate n 0#8)
      s.Inv ∧ 1 ≤ s.seq.length ∧ s.seq.length ≤ s.params.maxPacket - 9 ∧ s.seq.length ≤ 65528 ∧
        (0#8).toNat < s.params.numLinks ∧ s.links[(0#8).toNat]? = some Link.reset ∧ Link.reset.phase = .idle) ∧
    (frameW4.map fun b => (0, b)).map Prod.snd = frameW4 ∧ gapsShort State.reset.params (frameW4.map fun b => (0, b)) := by
  refine ⟨by decide, by decide, ?_⟩
  unfold gapsShort
  decide

end Sys2Proof.Tests
end

/-! ## State (10_state.md): what a command reads and what it leaves alone -/

namespace Sys2Proof.Machine

/-! ### The engine commands, as a frame and a dependence -/

/-- An engine command with a result answers it, committed as a result: the converse of `exec_engine_inversion`. -/
theorem exec_of_engineResult {s : State} {i : Instr} {e : Event} (h : EngineResult s i e) :
    exec i s = .next (s.result e) := by
  cases h with
  | crcu c b => exact exec_crcu s b c
  | crc hs => exact (exec_crc s).trans (State.onSequence_eq_next.2 ⟨hs, rfl⟩)
  | build q hs => exact (exec_build s q).trans (State.onSequence_eq_next.2 ⟨hs, rfl⟩)

/-- A result of an engine command depends on the parameters and the sequence alone (10_state.md R31). -/
theorem EngineResult.of_same_ports {s s' : State} {i : Instr} {e : Event} (h : EngineResult s i e)
    (hp : s'.params = s.params) (hq : s'.seq = s.seq) : EngineResult s' i e := by
  cases h with
  | crcu c b => exact .crcu c b
  | crc hs => exact hq ▸ .crc (hq ▸ hs)
  | build q hs => exact hp ▸ hq ▸ .build q (hq ▸ hs)

/-- Settles O17: the inversion lemma gives the result, and the same result stands in every state with the same
parameters and sequence. -/
theorem engineCommandsHoldNoState : Obligations.EngineCommandsHoldNoState := by
  intro s s' t i hi h
  obtain ⟨e, he, rfl⟩ := exec_engine_inversion hi h
  exact ⟨⟨rfl, rfl, rfl, rfl, rfl, rfl⟩, fun hp hq => exec_of_engineResult (he.of_same_ports hp hq)⟩

/-! ### The link commands, as a frame and a dependence -/

/-- A step that a link command can take on its link is the one it takes: the converse of `exec_link_inversion`. -/
theorem exec_of_linkCommandStep {s : State} {k : BitVec 8} {l : Link} {i : Instr} {r : LinkStep}
    (hk : k.toNat < s.params.numLinks) (hl : s.links[k.toNat]? = some l) (h : LinkCommandStep s.params k l i r) :
    exec i s = .next (s.commit k r) := by
  cases h with
  | lreset => exact (exec_lreset s k).trans (State.onLink_next hk hl rfl)
  | tick => exact (exec_tick s k).trans (State.onLink_next hk hl rfl)
  | rxb b hu => exact (exec_rxb s k b).trans (State.onLink_next hk hl (Link.rxb_eq_next.2 ⟨hu, rfl⟩))

/-- The link a command is committed to holds the step's record. -/
theorem State.commit_links_same {s : State} {k : BitVec 8} {l : Link} (r : LinkStep)
    (hl : s.links[k.toNat]? = some l) : (s.commit k r).links[k.toNat]? = some r.link := by
  rw [State.commit_links, List.getElem?_set_self (lt_length_of_getElem? hl)]

/-- Every other link stays as it is (41_parser.md R120). -/
theorem State.commit_links_other (s : State) {k : BitVec 8} (r : LinkStep) {j : Nat} (hj : j ≠ k.toNat) :
    (s.commit k r).links[j]? = s.links[j]? := by
  rw [State.commit_links, List.getElem?_set_ne hj.symm]

/-- No command makes or removes a link (10_state.md R20). -/
theorem State.length_commit_links (s : State) (k : BitVec 8) (r : LinkStep) :
    (s.commit k r).links.length = s.links.length := by
  rw [State.commit_links, List.length_set]

/-- Settles O29: the step is taken on link k's record and the parameters alone, so a state that has the same ones takes the
same step, and only link k is committed to. -/
theorem linkCommandsTouchOneLink : Obligations.LinkCommandsTouchOneLink := by
  refine ⟨fun s t i k hi h => ?_, fun s t i hi h => ?_⟩
  · obtain ⟨l, r, hk, hl, hr, rfl⟩ := exec_link_inversion hi h
    refine ⟨⟨rfl, rfl, rfl, s.length_commit_links k r, fun j hj => s.commit_links_other r hj⟩, fun s' hp hl' => ?_⟩
    have hs' : s'.links[k.toNat]? = some l := hl'.trans hl
    refine ⟨s'.commit k r, exec_of_linkCommandStep (hp ▸ hk) hs' (hp ▸ hr), ?_, rfl, rfl⟩
    rw [State.commit_links_same r hs', State.commit_links_same r hl]
  · obtain ⟨e, -, rfl⟩ := exec_engine_inversion hi h
    exact s.result_links e

end Sys2Proof.Machine

/-! ## Encoding (30_encoding.md): what decodes, and the words that are refused -/

namespace Sys2Proof

/-! ### The decoder, said once -/

/-- The command the decoder reads from a word that a row of the opcode map holds, with the fields R73 takes from it. -/
inductive RowHolds (w : Word) : Instr → Prop where
  | lreset (h : w &&& 0xF00FFFFF#32 = 0x10000000#32) : RowHolds w (.lreset (linkField w))
  | tick (h : w &&& 0xF00FFFFF#32 = 0x20000000#32) : RowHolds w (.tick (linkField w))
  | rxb (h : w &&& 0xF00FFF00#32 = 0x30000000#32) : RowHolds w (.rxb (linkField w) (dataField w))
  | crcu (h : w &&& 0xFF000000#32 = 0x40000000#32) : RowHolds w (.crcu (crcField w) (dataField w))
  | crc (h : w &&& 0xFFFFFFFF#32 = 0x50000000#32) : RowHolds w .crc
  | build (h : w &&& 0xFFFF00FF#32 = 0x60000000#32) : RowHolds w (.build (qidField w))

/-- A word that a row holds has the row's opcode. -/
theorem RowHolds.opField_eq {w : Word} {i : Instr} (h : RowHolds w i) : opField w = i.row.op := by
  cases h with
  | lreset h => exact ((and_maskLreset w).1 h).1
  | tick h => exact ((and_maskTick w).1 h).1
  | rxb h => exact ((and_maskRxb w).1 h).1
  | crcu h => exact ((and_maskCrcu w).1 h).1
  | crc h => exact ((and_maskCrc w).1 h).1
  | build h => exact ((and_maskBuild w).1 h).1

/-- A word decodes to a command exactly where a row of the opcode map holds it (R72, R73). -/
theorem decodeWord_eq_ok {w : Word} {i : Instr} : decodeWord w = .ok i ↔ RowHolds w i := by
  constructor
  · intro h
    unfold decodeWord at h
    split_ifs at h
    · obtain ⟨hm, rfl⟩ := OpcodeRow.read_eq_ok.1 h; exact .lreset hm
    · obtain ⟨hm, rfl⟩ := OpcodeRow.read_eq_ok.1 h; exact .tick hm
    · obtain ⟨hm, rfl⟩ := OpcodeRow.read_eq_ok.1 h; exact .rxb hm
    · obtain ⟨hm, rfl⟩ := OpcodeRow.read_eq_ok.1 h; exact .crcu hm
    · obtain ⟨hm, rfl⟩ := OpcodeRow.read_eq_ok.1 h; exact .crc hm
    · obtain ⟨hm, rfl⟩ := OpcodeRow.read_eq_ok.1 h; exact .build hm
  · intro h
    unfold decodeWord
    rw [h.opField_eq]
    cases h with
    | lreset h => exact OpcodeRow.read_eq_ok.2 ⟨h, rfl⟩
    | tick h => exact OpcodeRow.read_eq_ok.2 ⟨h, rfl⟩
    | rxb h => exact OpcodeRow.read_eq_ok.2 ⟨h, rfl⟩
    | crcu h => exact OpcodeRow.read_eq_ok.2 ⟨h, rfl⟩
    | crc h => exact OpcodeRow.read_eq_ok.2 ⟨h, rfl⟩
    | build h => exact OpcodeRow.read_eq_ok.2 ⟨h, rfl⟩

/-- NUM_LINKS apart, no word names a missing link (R73, R75). -/
theorem decodeWord_ne_noLink (w : Word) : decodeWord w ≠ .error .noLink := by
  unfold decodeWord
  split_ifs <;> simp [OpcodeRow.read_eq_error]

/-- A word is RESERVED exactly where no row of the opcode map holds it (R74). -/
theorem decodeWord_eq_reserved {w : Word} : decodeWord w = .error .reserved ↔ ∀ i, ¬ RowHolds w i := by
  simp only [← decodeWord_eq_ok]
  cases h : decodeWord w with
  | ok i => simp
  | error e =>
    cases e with
    | reserved => simp
    | noLink => exact absurd h (decodeWord_ne_noLink w)

/-- An instance decodes a word to a command exactly where a row holds it and the instance has the command (R73, R75). -/
theorem decode_eq_ok {n : Nat} {w : Word} {i : Instr} :
    decode n w = .ok i ↔ RowHolds w i ∧ WellFormed n i = true := by
  rw [← decodeWord_eq_ok, decode]
  cases decodeWord w with
  | error e => simp
  | ok j =>
    by_cases h : linkOk n j.link? = true
    · simp only [h, if_true, Except.ok.injEq]
      exact ⟨fun hj => ⟨hj, hj ▸ h⟩, And.left⟩
    · simp only [h, Bool.false_eq_true, if_false, reduceCtorEq, false_iff, Except.ok.injEq]
      rintro ⟨rfl, hi⟩
      exact h hi

/-- An instance refuses a word as RESERVED exactly where no row holds it, whatever its NUM_LINKS (R74). -/
theorem decode_eq_reserved {n : Nat} {w : Word} : decode n w = .error .reserved ↔ ∀ i, ¬ RowHolds w i := by
  rw [← decodeWord_eq_reserved, decode]
  cases decodeWord w with
  | error e => simp
  | ok j => by_cases h : linkOk n j.link? = true <;> simp [h]

/-- An instance refuses a word as NO_LINK exactly where a row holds it and the instance lacks the command (R75). -/
theorem decode_eq_noLink {n : Nat} {w : Word} :
    decode n w = .error .noLink ↔ ∃ i, RowHolds w i ∧ WellFormed n i = false := by
  simp only [← decodeWord_eq_ok]
  unfold decode WellFormed
  cases hw : decodeWord w with
  | error e => simpa using fun he : e = .noLink => decodeWord_ne_noLink w (he ▸ hw)
  | ok j => by_cases h : linkOk n j.link? = true <;> simp [h]

/-- A command's own row holds its word, and the word's fields are the command's operands (R71, R73). -/
theorem rowHolds_encode (i : Instr) : RowHolds (encode i) i := by
  cases i with
  | lreset k =>
    have h := RowHolds.lreset (beq_iff_eq.1 (Laws.EncodeMatches.lreset k))
    rwa [encode, linkField_wordL] at h
  | tick k =>
    have h := RowHolds.tick (beq_iff_eq.1 (Laws.EncodeMatches.tick k))
    rwa [encode, linkField_wordL] at h
  | rxb k b =>
    have h := RowHolds.rxb (beq_iff_eq.1 (Laws.EncodeMatches.rxb k b))
    rwa [encode, linkField_wordL, dataField_wordL] at h
  | crcu c b =>
    have h := RowHolds.crcu (beq_iff_eq.1 (Laws.EncodeMatches.crcu c b))
    rwa [encode, crcField_wordC, dataField_wordC] at h
  | crc => exact .crc (beq_iff_eq.1 Laws.EncodeMatches.crc)
  | build q =>
    have h := RowHolds.build (beq_iff_eq.1 (Laws.EncodeMatches.build q))
    rwa [encode, qidField_wordS] at h

/-- Decoding a command's word gives the command back on an instance that has it (R71, R73). -/
theorem decode_encode {n : Nat} {i : Instr} (h : WellFormed n i = true) : decode n (encode i) = .ok i :=
  decode_eq_ok.2 ⟨rowHolds_encode i, h⟩

/-! ### The words that no row holds, and those that name no link -/

/-- Some row holds a word exactly where its opcode is one of the six and that format's must-be-zero fields are zero
(R71, R72). -/
theorem exists_rowHolds_iff {w : Word} : (∃ i, RowHolds w i) ↔
    ((opField w = 1#4 ∨ opField w = 2#4) ∧ w.extractLsb' 0 20 = 0#20) ∨
    (opField w = 3#4 ∧ w.extractLsb' 8 12 = 0#12) ∨
    (opField w = 4#4 ∧ w.extractLsb' 24 4 = 0#4) ∨
    (opField w = 5#4 ∧ w.extractLsb' 0 28 = 0#28) ∨
    (opField w = 6#4 ∧ w.extractLsb' 16 12 = 0#12 ∧ w.extractLsb' 0 8 = 0#8) := by
  simp only [or_and_right, ← and_maskLreset, ← and_maskTick, ← and_maskRxb, ← and_maskCrcu, ← and_maskCrc,
    ← and_maskBuild]
  constructor
  · rintro ⟨i, h⟩
    cases h with
    | lreset h => exact .inl (.inl h)
    | tick h => exact .inl (.inr h)
    | rxb h => exact .inr (.inl h)
    | crcu h => exact .inr (.inr (.inl h))
    | crc h => exact .inr (.inr (.inr (.inl h)))
    | build h => exact .inr (.inr (.inr (.inr h)))
  · rintro ((h | h) | h | h | h | h)
    · exact ⟨_, .lreset h⟩
    · exact ⟨_, .tick h⟩
    · exact ⟨_, .rxb h⟩
    · exact ⟨_, .crcu h⟩
    · exact ⟨_, .crc h⟩
    · exact ⟨_, .build h⟩

/-- The opcodes: 0x0, the six of the map, and 0x7 to 0xF (R72, R74). -/
theorem opcode_cases (op : BitVec 4) :
    op = 0#4 ∨ op = 1#4 ∨ op = 2#4 ∨ op = 3#4 ∨ op = 4#4 ∨ op = 5#4 ∨ op = 6#4 ∨ 7 ≤ op.toNat := by
  revert op; decide

/-- A command an instance lacks names a link that is not there (R75). -/
theorem wellFormed_eq_false {n : Nat} {i : Instr} :
    WellFormed n i = false ↔ ∃ k, i.link? = some k ∧ n ≤ k.toNat := by
  cases h : i.link? <;> simp [WellFormed, linkOk, h]

namespace Machine

/-- A step whose next command's word decodes to no command is refused, for the decoder's reason (60_exceptions.md R183). -/
theorem step_of_decode_error {s : State} {c : Command} {rest : List Command} {e : DecodeRefusal}
    (hp : s.params.ok = true) (hc : s.pending = c :: rest) (he : decode s.params.numLinks c.word = .error e) :
    step s = .refused (refusalOf e) := by
  simp [step, hp, State.fetch_of_pending hc, he]

/-- Settles O5: a word is reserved where no row holds it, which the opcode decides together with that opcode's
must-be-zero fields. -/
theorem reservedWordsRefused : Obligations.ReservedWordsRefused := by
  refine fun w => ⟨?_, fun s q rest hp hc h => step_of_decode_error hp hc (h s.params.numLinks)⟩
  rw [show w.extractLsb' 28 4 = opField w from rfl]
  simp only [decode_eq_reserved, forall_const, ← not_exists, exists_rowHolds_iff]
  obtain h | h | h | h | h | h | h | h := opcode_cases (opField w)
  iterate 7 · simp [h, imp_iff_not_or]
  · have hne : ∀ op : BitVec 4, op.toNat < 7 → opField w ≠ op := by rintro op ho rfl; omega
    simp [h, hne]

/-- Settles O6: the commands an instance can lack are those of the three rows of format L, whose link field it is that
names no link. -/
theorem noLinkWordsRefused : Obligations.NoLinkWordsRefused := by
  refine fun n w => ⟨?_, fun s q rest hp hn hc h => step_of_decode_error (e := .noLink) hp hc (hn ▸ h)⟩
  simp only [decode_eq_noLink, wellFormed_eq_false]
  constructor
  · rintro ⟨i, hi, k, hk, hn⟩
    cases hi with
    | lreset h => cases hk; exact ⟨hn, .inl h⟩
    | tick h => cases hk; exact ⟨hn, .inr (.inl h)⟩
    | rxb h => cases hk; exact ⟨hn, .inr (.inr h)⟩
    | crcu h => cases hk
    | crc h => cases hk
    | build h => cases hk
  · rintro ⟨hn, h | h | h⟩
    · exact ⟨_, .lreset h, _, rfl, hn⟩
    · exact ⟨_, .tick h, _, rfl, hn⟩
    · exact ⟨_, .rxb h, _, rfl, hn⟩

/-! ### The pseudo-commands (R80) -/

/-- TICK's word decodes to TICK on an instance that has the link. -/
theorem decode_tick {n : Nat} {k : BitVec 8} (hk : k.toNat < n) :
    decode n (plainCommand (.tick k)).word = .ok (.tick k) :=
  decode_encode (decide_eq_true hk)

/-- The words of RXS decode to one RXB a byte, in order. -/
theorem decode_rxsCommands {n : Nat} {k : BitVec 8} (hk : k.toNat < n) (bytes : List Byte) :
    ((rxsCommands k bytes).map fun c => decode n c.word) = bytes.map fun b => .ok (.rxb k b) := by
  rw [rxsCommands, List.map_map]
  exact List.map_congr_left fun b _ => decode_encode (decide_eq_true hk)

/-- Settles O7: each line's commands are the words of RXB and TICK, which decode to them where the link is there. -/
theorem pseudoCommandsExpand : Obligations.PseudoCommandsExpand := by
  intro n k bytes m hk
  refine ⟨decode_rxsCommands hk bytes, ?_, ?_⟩
  · rw [Asm.commands, List.map_cons, decode_tick hk, decode_rxsCommands hk]
  · rw [Asm.commands, List.map_replicate, decode_tick hk]

end Machine

end Sys2Proof

/-! ## Frame Parser (41_parser.md): what each command does to its link -/

namespace Sys2Proof

/-- The words of LRESET: its row's match under its row's mask, and the link field (30_encoding.md R72, R73). -/
theorem rowHolds_lreset {w : Word} {k : BitVec 8} :
    RowHolds w (.lreset k) ↔ k = linkField w ∧ w &&& 0xF00FFFFF#32 = 0x10000000#32 := by
  constructor
  · rintro ⟨h⟩
    exact ⟨rfl, h⟩
  · rintro ⟨rfl, h⟩
    exact .lreset h

/-- The words of TICK: its row's match under its row's mask, and the link field (R72, R73). -/
theorem rowHolds_tick {w : Word} {k : BitVec 8} :
    RowHolds w (.tick k) ↔ k = linkField w ∧ w &&& 0xF00FFFFF#32 = 0x20000000#32 := by
  constructor
  · intro h
    cases h with
    | tick h => exact ⟨rfl, h⟩
  · rintro ⟨rfl, h⟩
    exact .tick h

namespace Machine

/-! ### LRESET and TICK -/

/-- Of two steps committed to one link the second stands. -/
theorem State.commit_commit (s : State) (k : BitVec 8) (r r' : LinkStep) :
    (s.commit k r).commit k r' = s.commit k r' := by
  simp only [State.commit, List.set_set]

/-- A quiet step to the record a link holds already changes only what is shown. -/
theorem State.commit_quiet_same {s : State} {k : BitVec 8} {l : Link} (hl : s.links[k.toNat]? = some l) :
    s.commit k l.quiet = { s with out := none, note := none } := by
  obtain ⟨hk, rfl⟩ := List.getElem?_eq_some_iff.1 hl
  simp only [State.commit, Link.quiet_link, Link.quiet_out, Link.quiet_note, List.set_getElem_self]

/-- LRESET commits the reset record, whatever the link held (R122). -/
theorem exec_lreset_of_link {s : State} {k : BitVec 8} {l : Link} (hk : k.toNat < s.params.numLinks)
    (hl : s.links[k.toNat]? = some l) : exec (.lreset k) s = .next (s.commit k Link.reset.quiet) :=
  exec_of_linkCommandStep hk hl .lreset

/-- TICK commits what the link's tick answers (R123). -/
theorem exec_tick_of_eq {s : State} {k : BitVec 8} {l : Link} {r : LinkStep} (hk : k.toNat < s.params.numLinks)
    (hl : s.links[k.toNat]? = some l) (hr : l.tick = r) : exec (.tick k) s = .next (s.commit k r) :=
  hr ▸ exec_of_linkCommandStep hk hl .tick

/-- Settles O19: the second LRESET finds the reset record and commits it again. -/
theorem lresetResetsLink : Obligations.LresetResetsLink := by
  refine ⟨fun w => decodeWord_eq_ok.trans (rowHolds_lreset.trans (and_iff_right rfl)), fun s k l hk hl => ?_⟩
  refine ⟨s.commit k Link.reset.quiet, rfl, exec_lreset_of_link hk hl, ?_⟩
  rw [exec_lreset_of_link (s := s.commit k _) hk (State.commit_links_same _ hl), State.commit_commit]

/-- Settles O20: the four cases of the link's tick, committed. -/
theorem tickCountsDown : Obligations.TickCountsDown := by
  refine ⟨fun w => decodeWord_eq_ok.trans (rowHolds_tick.trans (and_iff_right rfl)), fun s k l hk hl => ?_⟩
  refine ⟨fun h => ?_, fun h => ?_, fun h hp => ?_, fun h hp => ?_⟩
  · rw [exec_tick_of_eq hk hl (Link.tick_of_zero h), State.commit_quiet_same hl]
  · exact exec_tick_of_eq hk hl (Link.tick_of_two_le h)
  · exact exec_tick_of_eq hk hl (Link.tick_of_one h hp)
  · exact exec_tick_of_eq hk hl (Link.tick_of_one_idle h hp)

/-! ### RXB, phase by phase -/

/-- RXB commits what the arm answers, with the countdown restored (R124). -/
theorem exec_rxb_of_arm {s : State} {k : BitVec 8} {b : Byte} {l : Link} {r : LinkStep}
    (hk : k.toNat < s.params.numLinks) (hl : s.links[k.toNat]? = some l)
    (hu : l.phase = .payload → overhead < l.tlen.toNat) (hr : l.rxbArm s.params k b = r) :
    exec (.rxb k b) s = .next (s.commit k (r.restore s.params)) :=
  hr ▸ exec_of_linkCommandStep hk hl (.rxb b hu)

/-- Settles O21: the two cases of the IDLE arm, committed. -/
theorem rxbInIdle : Obligations.RxbInIdle := by
  intro s k b l hk hl hp
  have hx {r : LinkStep} (hr : l.rxbIdle s.params b = r) :=
    exec_rxb_of_arm (k := k) hk hl (by simp [hp]) ((Link.rxbArm_idle hp).trans hr)
  exact ⟨fun h => hx (Link.rxbIdle_of_eq h), fun h => hx (Link.rxbIdle_of_ne h)⟩

/-- Settles O22: the two cases of the SYNCING arm on the second preamble byte, committed. -/
theorem rxbInSyncing : Obligations.RxbInSyncing := by
  intro s k b l hk hl hp
  have hx {r : LinkStep} (hr : l.rxbSync s.params b = r) :=
    exec_rxb_of_arm (k := k) hk hl (by simp [hp]) ((Link.rxbArm_syncing hp).trans hr)
  exact ⟨fun h => hx (Link.rxbSync_of_eq h), fun h1 h => hx (Link.rxbSync_of_ne h1 h)⟩

/-- Settles O23: the cases of the HEADER arm by how many header bytes have come; the second completes the length, whose
value is compared with the two bounds. -/
theorem rxbInHeader : Obligations.RxbInHeader := by
  intro s k b l hk hl hp
  have hx {r : LinkStep} (hr : l.rxbHeader s.params b = r) :=
    exec_rxb_of_arm (k := k) hk hl (by simp [hp]) ((Link.rxbArm_header hp).trans hr)
  simp only [← toNat_fromLe16, BitVec.ofNat_toNat, BitVec.setWidth_eq]
  refine ⟨fun a ha h => ?_, fun a ha h h2 => ?_, fun a ha h h2 => ?_, fun h => ?_, fun h => ?_⟩
  · exact hx (Link.rxbHeader_of_small ha h)
  · exact hx (Link.rxbHeader_of_large ha h h2)
  · exact hx (Link.rxbHeader_of_ok ha h h2)
  · exact hx (Link.rxbHeader_of_two h)
  · have hr := hx (Link.rxbHeader_of_other (by simp [h]) (by simp [h]))
    rwa [h] at hr

/-- Settles O24: the two cases of the PAYLOAD arm, committed; the bound on tlen is what RXB needs there. -/
theorem rxbInPayload : Obligations.RxbInPayload := by
  intro s k b l hk hl hp ht
  have hx {r : LinkStep} (hr : l.rxbPayload b = r) :=
    exec_rxb_of_arm (k := k) hk hl (fun _ => ht) ((Link.rxbArm_payload hp).trans hr)
  exact ⟨fun h => hx (Link.rxbPayload_of_last h), fun h => hx (Link.rxbPayload_of_other h)⟩

/-- Settles O26: the cases of the CHECKSUM arm by how many checksum bytes have come; two bytes are the CRC's encoding
exactly when they read as its value. -/
theorem rxbInChecksum : Obligations.RxbInChecksum := by
  intro s k b l hk hl hp
  have hx {r : LinkStep} (hr : l.rxbChecksum k b = r) :=
    exec_rxb_of_arm hk hl (by simp [hp]) ((Link.rxbArm_checksum hp).trans hr)
  simp only [← le16_eq_pair, ne_eq]
  refine ⟨fun a ha h => ?_, fun a ha h => ?_, fun h => ?_⟩
  · exact hx (Link.rxbChecksum_of_match (by simp [ha]) (by rw [ha]; exact h))
  · exact hx (Link.rxbChecksum_of_mismatch (by simp [ha]) (by rw [ha]; exact h))
  · have hr := hx (Link.rxbChecksum_of_other (by simp [h]))
    rwa [h] at hr

/-! ### The delivery (R130) -/

/-- A tick emits nothing (R123). -/
theorem Link.tick_out (l : Link) : l.tick.out = none := by
  simp only [Link.tick]
  split_ifs <;> rfl

/-- The length test of the HEADER arm emits nothing (R127). -/
theorem Link.headerLength_out (p : Params) (l : Link) : (l.headerLength p).out = none := by
  simp only [Link.headerLength]
  split_ifs <;> rfl

/-- An arm of RXB emits nothing, or it is the CHECKSUM arm on the byte that completes the CRC, and delivers (R130). -/
theorem Link.rxbArm_out (p : Params) (k : BitVec 8) (l : Link) (b : Byte) :
    (l.rxbArm p k b).out = none ∨
      l.phase = .checksum ∧ l.cks ++ [b] = le16 (crc16 l.covered) ∧
        l.rxbArm p k b = { link := Link.idleWith l.cd, out := some (.deliver k l.qid l.pay), note := none } := by
  rcases Phase.cases_eq l.phase with hp | hp | hp | hp | hp
  · rw [Link.rxbArm_idle hp, Link.rxbIdle]
    split_ifs <;> exact .inl rfl
  · rw [Link.rxbArm_syncing hp, Link.rxbSync]
    split_ifs <;> exact .inl rfl
  · rw [Link.rxbArm_header hp]
    exact .inl (Link.headerLength_out p _)
  · rw [Link.rxbArm_payload hp, Link.rxbPayload]
    split_ifs <;> exact .inl rfl
  · rw [Link.rxbArm_checksum hp]
    by_cases h1 : l.cks.length = 1
    · by_cases h : l.cks ++ [b] = le16 (crc16 l.covered)
      · exact .inr ⟨hp, h, Link.rxbChecksum_of_match h1 h⟩
      · exact .inl (by rw [Link.rxbChecksum_of_mismatch h1 h])
    · exact .inl (by rw [Link.rxbChecksum_of_other h1]; rfl)

/-- A link of R24's table in CHECKSUM holds a payload of the bounds of 00_scope.md R7. -/
theorem Link.payload_bounds_of_inv {p : Params} {l : Link} (h : l.Inv p) (hp : l.phase = .checksum) :
    1 ≤ l.pay.length ∧ l.pay.length ≤ p.maxPacket - 9 := by
  obtain ⟨⟨-, -, -, ⟨hmin, hmax⟩, -⟩, -, hpay⟩ := (Link.rowInv_checksum hp).1 h.1
  simp only [overhead, Params.maxTotal, preLen] at hmin hmax hpay
  omega

/-- Settles O34: LRESET and TICK emit nothing, and of RXB's arms only CHECKSUM does, where it delivers. -/
theorem deliveryOnlyByCompletingByte : Obligations.DeliveryOnlyByCompletingByte := by
  intro s t i k hi h
  obtain ⟨l, r, -, hl, hr, rfl⟩ := exec_link_inversion hi h
  cases hr with
  | lreset => exact .inl rfl
  | tick => exact .inl l.tick_out
  | rxb b _ =>
    obtain hout | ⟨hp, hcrc, harm⟩ := l.rxbArm_out s.params k b
    · exact .inl hout
    · rw [harm]
      exact .inr ⟨b, l, rfl, rfl, hl, hp, hcrc, State.commit_links_same _ hl,
        fun hs => Link.payload_bounds_of_inv (hs.2.2 l (List.mem_of_getElem? hl)) hp⟩

end Machine

end Sys2Proof

/-! ## Packet Builder (42_builder.md): what BUILD answers, and its bounds beside the parser's -/

namespace Sys2Proof

/-- The words of BUILD: its row's match under its row's mask, and the queue-id field (30_encoding.md R72, R73). -/
theorem rowHolds_build {w : Word} {q : Byte} :
    RowHolds w (.build q) ↔ q = qidField w ∧ w &&& 0xFFFF00FF#32 = 0x60000000#32 := by
  constructor
  · intro h
    cases h with
    | build h => exact ⟨rfl, h⟩
  · rintro ⟨rfl, h⟩
    exact .build h

namespace Machine

/-! ### Little-endian fields from numbers (00_scope.md R13) -/

/-- The little-endian encoding of a number that fits 16 bits: the number and its quotient by 256, each cut to a byte. -/
theorem le16_ofNat {n : Nat} (h : n ≤ 0xFFFF) :
    le16 (BitVec.ofNat 16 n) = [BitVec.ofNat 8 n, BitVec.ofNat 8 (n / 256)] := by
  refine (le16_eq_pair.2 ?_).symm
  simp only [BitVec.toNat_ofNat]
  omega

/-- The little-endian encoding of a 16-bit value, by its number. -/
theorem le16_eq_ofNat_toNat (v : Half) : le16 v = [BitVec.ofNat 8 v.toNat, BitVec.ofNat 8 (v.toNat / 256)] := by
  rw [← le16_ofNat (Nat.le_of_lt_succ v.isLt), BitVec.ofNat_toNat, BitVec.setWidth_eq]

/-- A number that fits 16 bits, read back from the bytes of its encoding. -/
theorem toNat_fromLe16_ofNat {n : Nat} (h : n ≤ 0xFFFF) :
    (fromLe16 (BitVec.ofNat 8 n) (BitVec.ofNat 8 (n / 256))).toNat = n := by
  rw [toNat_fromLe16, le16_eq_pair.1 (le16_ofNat h).symm, BitVec.toNat_ofNat]
  omega

/-! ### BUILD's event, case by case (R160) -/

section
variable {p : Params} {q : Byte} {payload : List Byte}

/-- An empty payload is rejected first. -/
theorem buildEvent_of_empty (h : payload = []) : buildEvent p q payload = .reject .empty := by
  simp [buildEvent, h]

/-- A total length that the field cannot hold is rejected before it is compared with MAX_TOTAL. -/
theorem buildEvent_of_width (h : 0xFFFF < payload.length + overhead) :
    buildEvent p q payload = .reject .width := by
  have h0 : payload.length ≠ 0 := by unfold overhead at h; omega
  rw [buildEvent, if_neg h0, if_pos h]

/-- A total length above MAX_TOTAL. -/
theorem buildEvent_of_large (h0 : payload ≠ []) (h1 : payload.length + overhead ≤ 0xFFFF)
    (h2 : p.maxTotal < payload.length + overhead) : buildEvent p q payload = .reject .tooLarge := by
  rw [buildEvent, if_neg (mt List.length_eq_zero_iff.1 h0), if_neg (Nat.not_lt.2 h1), if_pos h2]

/-- A payload within its bounds gives its frame. -/
theorem buildEvent_of_ok (h0 : payload ≠ []) (h1 : payload.length + overhead ≤ 0xFFFF)
    (h2 : payload.length + overhead ≤ p.maxTotal) : buildEvent p q payload = .frame (frameOf p q payload) := by
  rw [buildEvent, if_neg (mt List.length_eq_zero_iff.1 h0), if_neg (Nat.not_lt.2 h1), if_neg (Nat.not_lt.2 h2)]

/-- BUILD rejects exactly where the total length is out of the parser's bounds or of the length field (R161). -/
theorem buildEvent_rejects_iff : (∃ r, buildEvent p q payload = .reject r) ↔
    0xFFFF < payload.length + overhead ∨
      (payload.length + overhead ≤ overhead ∨ p.maxTotal < payload.length + overhead) := by
  rcases Nat.lt_or_ge 0xFFFF (payload.length + overhead) with h1 | h1
  · exact iff_of_true ⟨_, buildEvent_of_width h1⟩ (.inl h1)
  · by_cases h0 : payload = []
    · exact iff_of_true ⟨_, buildEvent_of_empty h0⟩ (.inr (.inl (by simp [h0])))
    · rcases Nat.lt_or_ge p.maxTotal (payload.length + overhead) with h2 | h2
      · exact iff_of_true ⟨_, buildEvent_of_large h0 h1 h2⟩ (.inr (.inr h2))
      · have hpos := List.length_pos_iff.2 h0
        exact iff_of_false (by simp [buildEvent_of_ok h0 h1 h2]) (by omega)

/-- A frame spelt out: preamble, total length low byte first, queue-id, payload, and the CRC of them low byte first
(30_encoding.md R60). -/
theorem frameOf_eq {body : List Byte} (h : payload.length + 7 ≤ 65535)
    (hb : body = [p.p0, p.p1, BitVec.ofNat 8 (payload.length + 7), BitVec.ofNat 8 ((payload.length + 7) / 256), q] ++
      payload) :
    frameOf p q payload =
      body ++ [BitVec.ofNat 8 (crc16 body).toNat, BitVec.ofNat 8 ((crc16 body).toNat / 256)] := by
  rw [hb, ← le16_eq_ofNat_toNat]
  simp only [frameOf, frameHead, overhead, le16_ofNat h, List.cons_append, List.nil_append]
end

/-- BUILD on a sequence the port can present answers its event (R160, 30_encoding.md R76). -/
theorem exec_build_of_length {s : State} {q : Byte} (h : s.seq.length ≤ 65535) :
    exec (.build q) s = .next (s.result (buildEvent s.params q s.seq)) :=
  exec_of_engineResult (.build q h)

/-- Settles O52: the four cases of BUILD's event, with the frame's two little-endian fields spelt out. -/
theorem buildGivesFrameOrRejects : Obligations.BuildGivesFrameOrRejects := by
  refine ⟨fun w => decodeWord_eq_ok.trans (rowHolds_build.trans (and_iff_right rfl)), fun s q hs => ?_⟩
  rw [exec_build_of_length hs]
  refine ⟨fun h => ?_, fun h => ?_, fun h0 h1 h2 => ?_, fun h0 h1 h2 => ⟨_, rfl, ?_⟩⟩
  · rw [buildEvent_of_empty h, State.result]
  · rw [buildEvent_of_width (Nat.add_le_add_right h 7), State.result]
  · rw [buildEvent_of_large h0 h1 h2, State.result]
  · rw [buildEvent_of_ok h0 h1 h2, frameOf_eq h1 rfl, State.result]

/-! ### The builder's bounds beside the parser's (R161) -/

/-- Results of one state are equal exactly where their events are. -/
theorem State.result_inj {s : State} {e e' : Event} : s.result e = s.result e' ↔ e = e' :=
  ⟨fun h => Option.some.inj (congrArg State.out h), fun h => h ▸ rfl⟩

/-- The byte that completes the length drops the frame exactly where the length is out of the parser's bounds (R127). -/
theorem Link.rxbHeader_drops_iff {p : Params} {l : Link} {a b : Byte} (hh : l.hdr = [a]) :
    (∃ d, (l.rxbHeader p b).note = some d) ↔
      (fromLe16 a b).toNat ≤ overhead ∨ p.maxTotal < (fromLe16 a b).toNat := by
  rcases Nat.lt_or_ge overhead (fromLe16 a b).toNat with h | h
  · rcases Nat.lt_or_ge p.maxTotal (fromLe16 a b).toNat with h2 | h2
    · exact iff_of_true ⟨_, by rw [Link.rxbHeader_of_large hh h h2]⟩ (.inr h2)
    · exact iff_of_false (by simp [Link.rxbHeader_of_ok hh h h2]) (by omega)
  · exact iff_of_true ⟨_, by rw [Link.rxbHeader_of_small hh h]⟩ (.inl h)

/-- RXB of the byte that completes the length, as a step of the machine: it annotates a drop exactly where the length is out
of the parser's bounds (R124, R127). -/
theorem exec_rxb_drops_iff_of_header {s : State} {k : BitVec 8} {l : Link} {a b : Byte}
    (hk : k.toNat < s.params.numLinks) (hl : s.links[k.toNat]? = some l) (hp : l.phase = .header) (hh : l.hdr = [a]) :
    (∃ (t : State) (d : Drop), exec (.rxb k b) s = .next t ∧ t.note = some d) ↔
      (fromLe16 a b).toNat ≤ overhead ∨ s.params.maxTotal < (fromLe16 a b).toNat := by
  have hx := exec_rxb_of_arm (k := k) (b := b) hk hl (by simp [hp]) (Link.rxbArm_header hp)
  rw [hx, ← Link.rxbHeader_drops_iff hh]
  constructor
  · rintro ⟨t, d, ht, hd⟩
    cases ht
    exact ⟨d, hd⟩
  · rintro ⟨d, hd⟩
    exact ⟨_, d, rfl, hd⟩

/-- BUILD as a step of the machine: it rejects exactly where the total length is out of the parser's bounds or of the length
field (R161). -/
theorem exec_build_rejects_iff {s : State} {q : Byte} (hs : s.seq.length ≤ 65535) :
    (∃ r, exec (.build q) s = .next (s.result (.reject r))) ↔
      0xFFFF < s.seq.length + overhead ∨
        (s.seq.length + overhead ≤ overhead ∨ s.params.maxTotal < s.seq.length + overhead) := by
  simp only [exec_build_of_length hs, Host.Outcome.next.injEq, State.result_inj]
  exact buildEvent_rejects_iff

/-- Settles O54: both sides are the same two comparisons of the total length, which the parser reads back from the header
wherever 16 bits hold it. -/
theorem builderBoundsAreTheParsers : Obligations.BuilderBoundsAreTheParsers := by
  intro s q k l hs hk hl hp hh
  rw [exec_rxb_drops_iff_of_header hk hl hp hh]
  refine (exec_build_rejects_iff hs).trans (or_congr_right' fun hfit => ?_)
  rw [toNat_fromLe16_ofNat (n := s.seq.length + 7) (Nat.not_lt.1 hfit), overhead]

end Machine

end Sys2Proof

/-! ## Reset (70_reset_and_hazards.md): the links of an instance after power-on -/

namespace Sys2Proof.Machine

/-- The links after power-on: the reset record below NUM_LINKS, none above (10_state.md R20, 70_reset_and_hazards.md R200). -/
theorem State.powerOn_links_getElem? (p : Params) (k : Nat) :
    (State.powerOn p).links[k]? = if k < p.numLinks then some Link.reset else none := by
  rw [State.powerOn_links, List.getElem?_replicate]

/-- Settles O12: the parameters and the event are the power-on state's own fields, and each link holds the record of R28. -/
theorem powerOnLeavesLinksReset : Obligations.PowerOnLeavesLinksReset :=
  fun p => ⟨State.powerOn_params p, State.powerOn_out p, State.powerOn_links_getElem? p⟩

end Sys2Proof.Machine

/-! ## Encoding (30_encoding.md): the encoder and the decoder undo each other -/

namespace Sys2Proof

/-- The words of RXB: its row's match under its row's mask, and the link and data fields (30_encoding.md R72, R73). -/
theorem rowHolds_rxb {w : Word} {k : BitVec 8} {b : Byte} :
    RowHolds w (.rxb k b) ↔ (k = linkField w ∧ b = dataField w) ∧ w &&& 0xF00FFF00#32 = 0x30000000#32 := by
  constructor
  · intro h
    cases h with
    | rxb h => exact ⟨⟨rfl, rfl⟩, h⟩
  · rintro ⟨⟨rfl, rfl⟩, h⟩
    exact .rxb h

/-- The words of CRCU: its row's match under its row's mask, and the register and data fields (R72, R73). -/
theorem rowHolds_crcu {w : Word} {c : Half} {b : Byte} :
    RowHolds w (.crcu c b) ↔ (c = crcField w ∧ b = dataField w) ∧ w &&& 0xFF000000#32 = 0x40000000#32 := by
  constructor
  · intro h
    cases h with
    | crcu h => exact ⟨⟨rfl, rfl⟩, h⟩
  · rintro ⟨⟨rfl, rfl⟩, h⟩
    exact .crcu h

/-- The one word of CRC: its row's match (R72). -/
theorem rowHolds_crc {w : Word} : RowHolds w .crc ↔ w &&& 0xFFFFFFFF#32 = 0x50000000#32 := by
  constructor
  · intro h
    cases h with
    | crc h => exact h
  · exact .crc

/-- Two words of one row are equal where they agree on fields that cover what the row's mask leaves out (R71, R72). -/
theorem word_eq_of_row {w v m p : Word} (fields : List (Nat × Nat)) (hw : w &&& m = p) (hv : v &&& m = p)
    (hcover : ∀ i < 32, m.getLsbD i = true ∨ ∃ f ∈ fields, f.1 ≤ i ∧ i < f.1 + f.2)
    (h : fields.Forall fun f => w.extractLsb' f.1 f.2 = v.extractLsb' f.1 f.2) : w = v := by
  apply BitVec.eq_of_getLsbD_eq
  intro i hi
  obtain hm | ⟨f, hf, hle, hlt⟩ := hcover i hi
  · have hbit := congrArg (fun u => u.getLsbD i) (hw.trans hv.symm)
    simpa [hm] using hbit
  · have hbit := extract_eq_iff.1 (List.forall_iff_forall_mem.1 h f hf) (i - f.1) (by omega)
    simpa [Nat.add_sub_cancel' hle, show i - f.1 < f.2 by omega] using hbit

/-- A command has one word: what a row holds is the word the encoder writes (R71, R73). -/
theorem RowHolds.encode_eq {w : Word} {i : Instr} (h : RowHolds w i) : encode i = w := by
  have he := rowHolds_encode i
  cases i with
  | lreset k =>
    obtain ⟨hk, h⟩ := rowHolds_lreset.1 h
    obtain ⟨hk', h'⟩ := rowHolds_lreset.1 he
    exact word_eq_of_row [(20, 8)] h' h (by decide) (hk'.symm.trans hk)
  | tick k =>
    obtain ⟨hk, h⟩ := rowHolds_tick.1 h
    obtain ⟨hk', h'⟩ := rowHolds_tick.1 he
    exact word_eq_of_row [(20, 8)] h' h (by decide) (hk'.symm.trans hk)
  | rxb k b =>
    obtain ⟨⟨hk, hb⟩, h⟩ := rowHolds_rxb.1 h
    obtain ⟨⟨hk', hb'⟩, h'⟩ := rowHolds_rxb.1 he
    exact word_eq_of_row [(20, 8), (0, 8)] h' h (by decide) ⟨hk'.symm.trans hk, hb'.symm.trans hb⟩
  | crcu c b =>
    obtain ⟨⟨hc, hb⟩, h⟩ := rowHolds_crcu.1 h
    obtain ⟨⟨hc', hb'⟩, h'⟩ := rowHolds_crcu.1 he
    exact word_eq_of_row [(8, 16), (0, 8)] h' h (by decide) ⟨hc'.symm.trans hc, hb'.symm.trans hb⟩
  | crc => exact word_eq_of_row [] (rowHolds_crc.1 he) (rowHolds_crc.1 h) (by decide) trivial
  | build q =>
    obtain ⟨hq, h⟩ := rowHolds_build.1 h
    obtain ⟨hq', h'⟩ := rowHolds_build.1 he
    exact word_eq_of_row [(8, 8)] h' h (by decide) (hq'.symm.trans hq)

/-- Settles O2: a command's own row holds its word, with the command's operands in its fields. -/
theorem decodeOfEncode : Obligations.DecodeOfEncode :=
  fun _ _ => decode_encode

/-- Settles O3: what decodes is held by a row, and the row's fields cover the word. -/
theorem encodeOfDecode : Obligations.EncodeOfDecode := by
  intro n w i h
  obtain ⟨hrow, hwf⟩ := decode_eq_ok.1 h
  exact ⟨hrow.encode_eq, hwf⟩

/-- Settles O4: the decoder reads a command exactly where its row holds the word, which is the row's match under its mask. -/
theorem decodeByMatchAndMask : Obligations.DecodeByMatchAndMask := by
  intro w
  refine ⟨?_, ?_, ?_, ?_, ?_, ?_⟩ <;> rw [decodeWord_eq_ok]
  · exact rowHolds_lreset.trans (and_iff_right rfl)
  · exact rowHolds_tick.trans (and_iff_right rfl)
  · exact rowHolds_rxb.trans (and_iff_right ⟨rfl, rfl⟩)
  · exact rowHolds_crcu.trans (and_iff_right ⟨rfl, rfl⟩)
  · exact rowHolds_crc
  · exact rowHolds_build.trans (and_iff_right rfl)

/-- Settles O1: the nine words, run through the decoder. -/
theorem decodeSampleWords : Obligations.DecodeSampleWords := by
  unfold Obligations.DecodeSampleWords
  decide

end Sys2Proof

/-! ## Checksum Engine (40_checksum.md): the update, the fold, and single-bit errors -/

namespace Sys2Proof.Machine

/-! ### The update and the fold (R101, R102) -/

/-- Bits changed in the low byte of a register. -/
theorem lo_xor_setWidth (c : Half) (x : Byte) : lo (c ^^^ x.setWidth 16) = lo c ^^^ x := by
  rw [lo, lo, BitVec.extractLsb'_xor]
  congr 1
  apply BitVec.eq_of_getLsbD_eq
  intro i hi
  simp [hi, show i < 16 by omega]

/-- The table index of an update, as R101 writes it: the low byte of the register, exclusive-or the byte. -/
theorem setWidth_index (c : Half) (b : Byte) :
    ((c ^^^ b.setWidth 16) &&& 0xFF#16).setWidth 8 = lo c ^^^ b := by
  rw [← lo_xor_setWidth]
  apply BitVec.eq_of_toNat_eq
  rw [BitVec.toNat_setWidth, BitVec.toNat_and, toNat_lo]
  exact (congrArg (· % 256) (Nat.and_two_pow_sub_one_eq_mod _ 8)).trans (Nat.mod_mod _ _)

/-- The update with the table entry its generator gives (R100, R101). -/
theorem crcu_eq_generator (c : Half) (b : Byte) :
    crcu c b = (c >>> 8) ^^^ generator (((c ^^^ b.setWidth 16) &&& 0xFF#16).setWidth 8) := by
  rw [crcu, tableAt_eq_generator, setWidth_index]

/-- A byte in the low half of a register leaves the high half alone. -/
theorem xor_setWidth_shiftRight (c : Half) (x : Byte) : (c ^^^ x.setWidth 16) >>> 8 = c >>> 8 := by
  apply BitVec.eq_of_getLsbD_eq
  intro i hi
  simp

/-- The same bits changed in the low half of the register and in the byte cancel in the table index. -/
theorem crcu_xor_xor (c : Half) (b x : Byte) : crcu (c ^^^ x.setWidth 16) (b ^^^ x) = crcu c b := by
  have hidx : lo (c ^^^ x.setWidth 16) ^^^ (b ^^^ x) = lo c ^^^ b := by
    rw [lo_xor_setWidth, BitVec.xor_comm b x, ← BitVec.xor_assoc, BitVec.xor_assoc (lo c), BitVec.xor_self,
      BitVec.xor_zero]
  rw [crcu, crcu, hidx, xor_setWidth_shiftRight]

/-- Settles O14: CRCU answers the update, whose table entry is the generator's. -/
theorem crcuGivesTableUpdate : Obligations.CrcuGivesTableUpdate := by
  refine ⟨fun c b s => ?_, crcu_xor_xor, by decide, by decide⟩
  rw [exec_crcu, crcu_eq_generator, State.result]

/-- CRC on a sequence the port can present answers its CRC (R102, 30_encoding.md R76). -/
theorem exec_crc_of_length {s : State} (h : s.seq.length ≤ 65535) :
    exec .crc s = .next (s.result (.crcOut (crc16 s.seq))) :=
  exec_of_engineResult (.crc h)

/-- The CRC of a concatenation is the fold over the second part from the CRC of the first (R102). -/
theorem crc16_append (a b : List Byte) : crc16 (a ++ b) = b.foldl crcu (crc16 a) := List.foldl_append

/-- Settles O15: CRC answers the fold of the update, which from the left distributes over concatenation. -/
theorem crcFoldsSequence : Obligations.CrcFoldsSequence := by
  refine ⟨fun s hs => ?_, fun s hs => ?_, crc16_append, by decide⟩
  · simp only [← crcu_eq_generator]
    exact exec_crc_of_length hs
  · have hcrc : crc16 s.seq = 0xFFFF#16 := by rw [hs]; rfl
    rw [exec_crc_of_length (by simp [hs]), hcrc, State.result]

/-- Settles O16: the two commands on the sequence operand have none. -/
theorem overlongSequenceRefused : Obligations.OverlongSequenceRefused :=
  fun s q h => ⟨(exec_crc s).trans (State.onSequence_of_overlong h),
    (exec_build s q).trans (State.onSequence_of_overlong h)⟩

/-! ### Single-bit errors (R106) -/

/-- A byte sequence with one byte replaced by another has another CRC: up to that byte the registers agree, the update tells
the two bytes apart, and the bytes after it keep the registers apart. -/
theorem crc16_set_ne {m : List Byte} {i : Nat} {v : Byte} (hi : i < m.length) (hv : v ≠ m[i]) :
    crc16 (m.set i v) ≠ crc16 m := by
  have hset : m.set i v = m.take i ++ v :: m.drop (i + 1) := by rw [List.set_eq_take_append_cons_drop, if_pos hi]
  have hm : m = m.take i ++ m[i] :: m.drop (i + 1) := by rw [List.getElem_cons_drop, List.take_append_drop]
  intro h
  rw [hset, show crc16 m = crc16 (m.take i ++ m[i] :: m.drop (i + 1)) from congrArg crc16 hm, crc16_append,
    crc16_append, List.foldl_cons, List.foldl_cons] at h
  exact hv (crcu_byte_injective (foldl_crcu_injective _ h))

/-- A bit shifted below the width changes a word. -/
theorem xor_one_shiftLeft_ne {w : Nat} (v : BitVec w) {j : Nat} (hj : j < w) : v ^^^ (1#w <<< j) ≠ v := by
  intro h
  have hbit := congrArg (fun u => u.getLsbD j) h
  simp [hj] at hbit

/-- The CRC of a byte sequence with one bit of one byte changed is another (R106). -/
theorem crc16_flip_ne {m : List Byte} {i j : Nat} (hi : i < m.length) (hj : j < 8) :
    crc16 (m.set i (m.getD i 0#8 ^^^ (1#8 <<< j))) ≠ crc16 m := by
  rw [List.getD_eq_getElem _ _ hi]
  exact crc16_set_ne hi (xor_one_shiftLeft_ne _ hj)

/-- A link in CHECKSUM drops the frame on the second byte of any value but the CRC of the bytes it holds (R129). -/
theorem exec_rxb_of_wrong_crc {s : State} {k : BitVec 8} {l : Link} {v : Half} (hk : k.toNat < s.params.numLinks)
    (hl : s.links[k.toNat]? = some l) (hp : l.phase = .checksum) (hc : l.cks = [lo v]) (hv : v ≠ crc16 l.covered) :
    exec (.rxb k (hi v)) s = .next { s with
      links := s.links.set k.toNat (Link.idleWith s.params.timeout), out := none, note := some .crc } := by
  obtain ⟨-, hmismatch, -⟩ := rxbInChecksum s k (hi v) l hk hl hp
  refine hmismatch _ hc fun h => hv (BitVec.eq_of_toNat_eq ?_)
  rw [← le16_eq_pair.1 (rfl : [lo v, hi v] = le16 v)]
  exact h

/-- Settles O18: in both ways of spoiling a frame the checksum bytes are the encoding of another value than the CRC of the
bytes the link holds. -/
theorem singleBitErrorsDropped : Obligations.SingleBitErrorsDropped := by
  refine ⟨fun m i j => crc16_flip_ne, fun s k l m i j hk hl hp hi hj hm hc => ?_,
    fun s k l v j hk hl hp hj hv hc => ?_⟩
  · refine exec_rxb_of_wrong_crc hk hl hp hc ?_
    rw [Link.covered, hm]
    exact (crc16_flip_ne hi hj).symm
  · refine exec_rxb_of_wrong_crc hk hl hp hc ?_
    rw [hv]
    exact xor_one_shiftLeft_ne _ hj

end Sys2Proof.Machine

/-! ## Frame Parser (41_parser.md): everything one command can do to its link -/

namespace Sys2Proof.Machine

/-- Everything an arm of RXB can do, with the condition under which it does it (41_parser.md R125 to R130). -/
inductive ArmStep (p : Params) (k : BitVec 8) (l : Link) (b : Byte) : LinkStep → Prop where
  | begun (hp : l.phase = .idle) (h : b = p.p0) : ArmStep p k l b { l with pre := [b], phase := .syncing }.quiet
  | noise (hp : l.phase = .idle) (h : b ≠ p.p0) : ArmStep p k l b (l.annotate .noise)
  | synced (hp : l.phase = .syncing) (h : l.pre ++ [b] = [p.p0, p.p1]) :
      ArmStep p k l b { l with pre := [p.p0, p.p1], phase := .header }.quiet
  | unsynced (hp : l.phase = .syncing) (h1 : l.pre.length = 1) (h : l.pre ++ [b] ≠ [p.p0, p.p1]) :
      ArmStep p k l b { link := Link.idleWith l.cd, out := none, note := some .sync }
  | preGrown (hp : l.phase = .syncing) (h1 : l.pre.length ≠ 1) : ArmStep p k l b { l with pre := l.pre ++ [b] }.quiet
  | lenSmall (a : Byte) (hp : l.phase = .header) (hh : l.hdr = [a]) (h : (fromLe16 a b).toNat ≤ overhead) :
      ArmStep p k l b { link := Link.idleWith l.cd, out := none, note := some .lenSmall }
  | lenLarge (a : Byte) (hp : l.phase = .header) (hh : l.hdr = [a]) (h : overhead < (fromLe16 a b).toNat)
      (h2 : p.maxTotal < (fromLe16 a b).toNat) :
      ArmStep p k l b { link := Link.idleWith l.cd, out := none, note := some .lenLarge }
  | lenRead (a : Byte) (hp : l.phase = .header) (hh : l.hdr = [a]) (h : overhead < (fromLe16 a b).toNat)
      (h2 : (fromLe16 a b).toNat ≤ p.maxTotal) :
      ArmStep p k l b { l with hdr := [a, b], tlen := fromLe16 a b }.quiet
  | qidRead (hp : l.phase = .header) (hh : l.hdr.length = 2) :
      ArmStep p k l b { l with hdr := l.hdr ++ [b], qid := b, phase := .payload }.quiet
  | hdrGrown (hp : l.phase = .header) (h1 : l.hdr.length ≠ 1) (h2 : l.hdr.length ≠ 2) :
      ArmStep p k l b { l with hdr := l.hdr ++ [b] }.quiet
  | payEnded (hp : l.phase = .payload) (h : l.pay.length + 1 = l.tlen.toNat - overhead) :
      ArmStep p k l b { l with pay := l.pay ++ [b], phase := .checksum }.quiet
  | payGrown (hp : l.phase = .payload) (h : l.pay.length + 1 ≠ l.tlen.toNat - overhead) :
      ArmStep p k l b { l with pay := l.pay ++ [b] }.quiet
  | delivered (hp : l.phase = .checksum) (h1 : l.cks.length = 1) (h : l.cks ++ [b] = le16 (crc16 l.covered)) :
      ArmStep p k l b { link := Link.idleWith l.cd, out := some (.deliver k l.qid l.pay), note := none }
  | badCrc (hp : l.phase = .checksum) (h1 : l.cks.length = 1) (h : l.cks ++ [b] ≠ le16 (crc16 l.covered)) :
      ArmStep p k l b { link := Link.idleWith l.cd, out := none, note := some .crc }
  | cksGrown (hp : l.phase = .checksum) (h1 : l.cks.length ≠ 1) : ArmStep p k l b { l with cks := l.cks ++ [b] }.quiet

section
variable {p : Params} {k : BitVec 8} {l : Link} {b : Byte} {r : LinkStep}

/-- A step whose condition holds is the one RXB's arm takes. -/
theorem ArmStep.rxbArm_eq (h : ArmStep p k l b r) : l.rxbArm p k b = r := by
  cases h with
  | begun hp h => exact (Link.rxbArm_idle hp).trans (Link.rxbIdle_of_eq h)
  | noise hp h => exact (Link.rxbArm_idle hp).trans (Link.rxbIdle_of_ne h)
  | synced hp h => exact (Link.rxbArm_syncing hp).trans (Link.rxbSync_of_eq h)
  | unsynced hp h1 h => exact (Link.rxbArm_syncing hp).trans (Link.rxbSync_of_ne h1 h)
  | preGrown hp h1 => exact (Link.rxbArm_syncing hp).trans (Link.rxbSync_of_length h1)
  | lenSmall a hp hh h => exact (Link.rxbArm_header hp).trans (Link.rxbHeader_of_small hh h)
  | lenLarge a hp hh h h2 => exact (Link.rxbArm_header hp).trans (Link.rxbHeader_of_large hh h h2)
  | lenRead a hp hh h h2 => exact (Link.rxbArm_header hp).trans (Link.rxbHeader_of_ok hh h h2)
  | qidRead hp hh => exact (Link.rxbArm_header hp).trans (Link.rxbHeader_of_two hh)
  | hdrGrown hp h1 h2 => exact (Link.rxbArm_header hp).trans (Link.rxbHeader_of_other h1 h2)
  | payEnded hp h => exact (Link.rxbArm_payload hp).trans (Link.rxbPayload_of_last h)
  | payGrown hp h => exact (Link.rxbArm_payload hp).trans (Link.rxbPayload_of_other h)
  | delivered hp h1 h => exact (Link.rxbArm_checksum hp).trans (Link.rxbChecksum_of_match h1 h)
  | badCrc hp h1 h => exact (Link.rxbArm_checksum hp).trans (Link.rxbChecksum_of_mismatch h1 h)
  | cksGrown hp h1 => exact (Link.rxbArm_checksum hp).trans (Link.rxbChecksum_of_other h1)

/-- The conditions cover every link and byte, so RXB's arm takes one of the steps. -/
theorem Link.exists_armStep (p : Params) (k : BitVec 8) (l : Link) (b : Byte) : ∃ r, ArmStep p k l b r := by
  rcases Phase.cases_eq l.phase with hp | hp | hp | hp | hp
  · by_cases h : b = p.p0
    · exact ⟨_, .begun hp h⟩
    · exact ⟨_, .noise hp h⟩
  · by_cases h1 : l.pre.length = 1
    · by_cases h : l.pre ++ [b] = [p.p0, p.p1]
      · exact ⟨_, .synced hp h⟩
      · exact ⟨_, .unsynced hp h1 h⟩
    · exact ⟨_, .preGrown hp h1⟩
  · by_cases h1 : l.hdr.length = 1
    · obtain ⟨a, ha⟩ := List.length_eq_one_iff.1 h1
      rcases Nat.lt_or_ge overhead (fromLe16 a b).toNat with h | h
      · rcases Nat.lt_or_ge p.maxTotal (fromLe16 a b).toNat with h2 | h2
        · exact ⟨_, .lenLarge a hp ha h h2⟩
        · exact ⟨_, .lenRead a hp ha h h2⟩
      · exact ⟨_, .lenSmall a hp ha h⟩
    · by_cases h2 : l.hdr.length = 2
      · exact ⟨_, .qidRead hp h2⟩
      · exact ⟨_, .hdrGrown hp h1 h2⟩
  · by_cases h : l.pay.length + 1 = l.tlen.toNat - overhead
    · exact ⟨_, .payEnded hp h⟩
    · exact ⟨_, .payGrown hp h⟩
  · by_cases h1 : l.cks.length = 1
    · by_cases h : l.cks ++ [b] = le16 (crc16 l.covered)
      · exact ⟨_, .delivered hp h1 h⟩
      · exact ⟨_, .badCrc hp h1 h⟩
    · exact ⟨_, .cksGrown hp h1⟩

/-- Everything RXB's arm does (R124). -/
theorem Link.armStep (p : Params) (k : BitVec 8) (l : Link) (b : Byte) : ArmStep p k l b (l.rxbArm p k b) := by
  obtain ⟨r, hr⟩ := l.exists_armStep p k b
  exact hr.rxbArm_eq ▸ hr
end

/-- Everything a tick can do (R123). -/
inductive TickStep (l : Link) : LinkStep → Prop where
  | still (h : l.cd = 0) : TickStep l l.quiet
  | down (h : 2 ≤ l.cd) : TickStep l { l with cd := l.cd - 1 }.quiet
  | expired (h : l.cd = 1) (hp : l.phase ≠ .idle) :
      TickStep l { link := Link.idleWith 0, out := none, note := some .timeout }
  | expiredIdle (h : l.cd = 1) (hp : l.phase = .idle) : TickStep l (Link.idleWith 0).quiet

/-- A step whose condition holds is the one the tick takes. -/
theorem TickStep.tick_eq {l : Link} {r : LinkStep} (h : TickStep l r) : l.tick = r := by
  cases h with
  | still h => exact Link.tick_of_zero h
  | down h => exact Link.tick_of_two_le h
  | expired h hp => exact Link.tick_of_one h hp
  | expiredIdle h hp => exact Link.tick_of_one_idle h hp

/-- Everything the tick does (R123). -/
theorem Link.tickStep (l : Link) : TickStep l l.tick := by
  have hr : ∃ r, TickStep l r := by
    rcases Nat.lt_trichotomy l.cd 1 with h | h | h
    · exact ⟨_, .still (Nat.lt_one_iff.1 h)⟩
    · by_cases hp : l.phase = .idle
      · exact ⟨_, .expiredIdle h hp⟩
      · exact ⟨_, .expired h hp⟩
    · exact ⟨_, .down h⟩
  obtain ⟨r, hr⟩ := hr
  exact hr.tick_eq ▸ hr

/-! ### The invariant of reachable states (10_state.md R24) -/

/-- TIMEOUT is at least one tick (00_scope.md R6). -/
theorem timeout_pos_of_ok {p : Params} (h : p.ok = true) : 1 ≤ p.timeout := (Params.ok_iff.1 h).2.1

section
variable {p : Params} {k : BitVec 8} {l : Link}

/-- The third header byte is not part of the length (30_encoding.md R61). -/
theorem lengthField_append {h : List Byte} (b : Byte) (hl : h.length = 2) : lengthField (h ++ [b]) = lengthField h := by
  match h, hl with
  | [x, y], _ => rfl

/-- No arm of RXB leaves R24's table, the countdown apart. -/
theorem Link.rowInv_rxbArm {b : Byte} (h : l.rowInv p = true) : (l.rxbArm p k b).link.rowInv p = true := by
  have hidle (c : Nat) : (Link.idleWith c).rowInv p = true :=
    (Link.rowInv_idle rfl).2 ⟨rfl, rfl, rfl, rfl, rfl, rfl⟩
  have hstep := l.armStep p k b
  generalize l.rxbArm p k b = r at hstep
  cases hstep with
  | begun hp hb =>
    obtain ⟨-, hhdr, hpay, hcks, htlen, hqid⟩ := (Link.rowInv_idle hp).1 h
    exact (Link.rowInv_syncing rfl).2 ⟨congrArg (fun x => [x]) hb, hhdr, hpay, hcks, htlen, hqid⟩
  | noise hp hb => exact h
  | synced hp hb =>
    obtain ⟨-, hhdr, hpay, hcks, htlen, hqid⟩ := (Link.rowInv_syncing hp).1 h
    exact (Link.rowInv_header rfl).2 ⟨rfl, hpay, hcks, hqid, .inl ⟨by simp [hhdr], htlen⟩⟩
  | unsynced hp h1 hb => exact hidle _
  | preGrown hp h1 =>
    obtain ⟨hpre, -⟩ := (Link.rowInv_syncing hp).1 h
    exact absurd (by rw [hpre]; rfl) h1
  | lenSmall a hp hh hlen => exact hidle _
  | lenLarge a hp hh hlen hlen2 => exact hidle _
  | lenRead a hp hh hlen hlen2 =>
    obtain ⟨hpre, hpay, hcks, hqid, -⟩ := (Link.rowInv_header hp).1 h
    exact (Link.rowInv_header (by exact hp)).2 ⟨hpre, hpay, hcks, hqid, .inr ⟨rfl, rfl, hlen, hlen2⟩⟩
  | qidRead hp hh =>
    obtain ⟨hpre, hpay, hcks, -, ⟨hlen, -⟩ | ⟨-, htlen, hok⟩⟩ := (Link.rowInv_header hp).1 h
    · omega
    · refine (Link.rowInv_payload rfl).2 ⟨⟨hpre, by simp [hh], ?_, hok, by simp [hh]⟩, hcks, ?_⟩
      · exact htlen.trans (lengthField_append b hh).symm
      · have := hok.1
        simp only [Link.quiet_link, hpay, List.length_nil]
        omega
  | hdrGrown hp h1 h2 =>
    obtain ⟨hpre, hpay, hcks, hqid, ⟨hlen, htlen⟩ | ⟨hlen, -⟩⟩ := (Link.rowInv_header hp).1 h
    · refine (Link.rowInv_header (by exact hp)).2 ⟨hpre, hpay, hcks, hqid, .inl ⟨?_, htlen⟩⟩
      simp only [Link.quiet_link, List.length_append, List.length_singleton]
      omega
    · exact absurd hlen h2
  | payEnded hp hlen =>
    obtain ⟨hbody, hcks, -⟩ := (Link.rowInv_payload hp).1 h
    exact (Link.rowInv_checksum rfl).2 ⟨hbody, by simp [hcks], by simpa using hlen⟩
  | payGrown hp hlen =>
    obtain ⟨hbody, hcks, hlt⟩ := (Link.rowInv_payload hp).1 h
    refine (Link.rowInv_payload (by exact hp)).2 ⟨hbody, hcks, ?_⟩
    simp only [Link.quiet_link, List.length_append, List.length_singleton]
    omega
  | delivered hp h1 hb => exact hidle _
  | badCrc hp h1 hb => exact hidle _
  | cksGrown hp h1 =>
    obtain ⟨hbody, hcks, hlen⟩ := (Link.rowInv_checksum hp).1 h
    refine (Link.rowInv_checksum (by exact hp)).2 ⟨hbody, ?_, hlen⟩
    simp only [Link.quiet_link, List.length_append, List.length_singleton]
    omega

/-- A tick keeps the invariant of a link. -/
theorem Link.inv_tick (h : l.Inv p) : l.tick.link.Inv p := by
  have hstep := l.tickStep
  generalize l.tick = r at hstep
  cases hstep with
  | still hc => exact h
  | down hc =>
    obtain ⟨hrow, hle, -⟩ := h
    exact ⟨hrow, (Nat.sub_le _ _).trans hle, fun _ => Nat.le_sub_one_of_lt hc⟩
  | expired hc hp => exact Link.inv_idleWith (Nat.zero_le _)
  | expiredIdle hc hp => exact Link.inv_idleWith (Nat.zero_le _)

/-- Every command on a link keeps the link's invariant. -/
theorem LinkCommandStep.inv {i : Instr} {r : LinkStep} (hp : p.ok = true) (h : l.Inv p)
    (hr : LinkCommandStep p k l i r) : r.link.Inv p := by
  cases hr with
  | lreset => exact Link.inv_idleWith (Nat.zero_le _)
  | tick => exact Link.inv_tick h
  | rxb b hu => exact ⟨Link.rowInv_rxbArm h.1, le_rfl, fun _ => timeout_pos_of_ok hp⟩
end

/-- A link of a machine that meets the invariant meets its own. -/
theorem State.Inv.link {s : State} {k : Nat} {l : Link} (h : s.Inv) (hl : s.links[k]? = some l) : l.Inv s.params :=
  h.2.2 l (List.mem_of_getElem? hl)

/-- A step committed to a link keeps the machine's invariant where the new record meets the link's. -/
theorem State.Inv.commit {s : State} {k : BitVec 8} {r : LinkStep} (h : s.Inv) (hr : r.link.Inv s.params) :
    (s.commit k r).Inv := by
  obtain ⟨hok, hlen, hall⟩ := h
  refine ⟨hok, (s.length_commit_links k r).trans hlen, fun l hl => ?_⟩
  obtain hl | rfl := List.mem_or_eq_of_mem_set hl
  · exact hall l hl
  · exact hr

/-- Every command keeps the invariant (R24). -/
theorem State.Inv.after_exec {s t : State} {i : Instr} (h : s.Inv) (hx : exec i s = .next t) : t.Inv := by
  cases hi : i.link? with
  | none =>
    obtain ⟨e, -, rfl⟩ := exec_engine_inversion hi hx
    exact h
  | some k =>
    obtain ⟨l, r, -, hl, hr, rfl⟩ := exec_link_inversion hi hx
    exact h.commit (hr.inv h.1 (h.link hl))

/-- Everything a step can do when it answers a next state (00_scope.md R10, 60_exceptions.md R194). -/
theorem step_inversion {s t : State} (h : step s = .next t) :
    t = { s with out := none, note := none } ∨
      ∃ (c : Command) (rest : List Command) (i : Instr), s.pending = c :: rest ∧
        decode s.params.numLinks c.word = .ok i ∧ exec i { s with pending := rest, seq := c.seq } = .next t := by
  unfold step at h
  split_ifs at h with hok
  by_cases hp : s.pending = []
  · rw [State.fetch_of_no_pending hp] at h
    exact .inl (Host.Outcome.next.inj h).symm
  · obtain ⟨c, rest, hp⟩ := List.exists_cons_of_ne_nil hp
    rw [State.fetch_of_pending hp] at h
    cases hd : decode s.params.numLinks c.word with
    | ok i =>
      simp only [hd] at h
      exact .inr ⟨c, rest, i, hp, hd, h⟩
    | error e => simp [hd] at h

/-- Settles O31: the invariant does not speak of the ports, and every command keeps it. -/
theorem stepKeepsReachableStates : Obligations.StepKeepsReachableStates := by
  intro s t h hs
  obtain rfl | ⟨c, rest, i, -, -, hx⟩ := step_inversion hs
  · exact h
  · exact State.Inv.after_exec (s := { s with pending := rest, seq := c.seq }) h hx

/-- Settles O13: each link holds the reset record, which is R24's row of IDLE. -/
theorem powerOnMeetsReachableStates : Obligations.PowerOnMeetsReachableStates := by
  refine fun p hp => ⟨hp, List.length_replicate, fun l hl => ?_⟩
  rw [State.powerOn_links] at hl
  rw [List.eq_of_mem_replicate hl]
  exact Link.inv_idleWith (Nat.zero_le _)

/-- A link of R24's table holds no more than its buffers' capacities (10_state.md R30). -/
theorem Link.capacity_of_inv {p : Params} {l : Link} (h : l.Inv p) :
    l.pre.length ≤ 2 ∧ l.hdr.length ≤ 3 ∧ l.pay.length ≤ p.maxPacket - 9 ∧ l.cks.length ≤ 2 := by
  have hmax : p.maxTotal - overhead = p.maxPacket - 9 := Nat.sub_sub p.maxPacket 2 7
  rcases Phase.cases_eq l.phase with hp | hp | hp | hp | hp
  · obtain ⟨hpre, hhdr, hpay, hcks, -⟩ := (Link.rowInv_idle hp).1 h.1
    simp [hpre, hhdr, hpay, hcks]
  · obtain ⟨hpre, hhdr, hpay, hcks, -⟩ := (Link.rowInv_syncing hp).1 h.1
    simp [hpre, hhdr, hpay, hcks]
  · obtain ⟨hpre, hpay, hcks, -, hhdr⟩ := (Link.rowInv_header hp).1 h.1
    simp only [hpre, hpay, hcks, List.length_cons, List.length_nil]
    omega
  · obtain ⟨⟨hpre, hhdr, -, hlen, -⟩, hcks, hpay⟩ := (Link.rowInv_payload hp).1 h.1
    have := hlen.2
    simp only [hpre, hcks, List.length_cons, List.length_nil]
    omega
  · obtain ⟨⟨hpre, hhdr, -, hlen, -⟩, hcks, hpay⟩ := (Link.rowInv_checksum hp).1 h.1
    have := hlen.2
    simp only [hpre, List.length_cons, List.length_nil]
    omega

/-- Settles O32: the state after has the invariant, whose rows bound the buffers. -/
theorem buffersStayInCapacity : Obligations.BuffersStayInCapacity := by
  intro s t h hs l hl
  exact Link.capacity_of_inv ((stepKeepsReachableStates s t h hs).2.2 l hl)

/-- Settles O30: a link command finds its link, which has the length RXB needs in PAYLOAD, and an engine command its
sequence. -/
theorem everyCommandCompletes : Obligations.EveryCommandCompletes := by
  intro s i h hwf hseq
  have hlink {k : BitVec 8} (hk : linkOk s.params.numLinks (some k) = true) :
      ∃ l, k.toNat < s.params.numLinks ∧ s.links[k.toNat]? = some l := by
    obtain ⟨l, hl⟩ := State.exists_link? h.2.1 (of_decide_eq_true hk)
    exact ⟨l, State.link?_eq_some.1 hl⟩
  cases i with
  | lreset k =>
    obtain ⟨l, hk, hl⟩ := hlink hwf
    exact ⟨_, exec_of_linkCommandStep hk hl .lreset⟩
  | tick k =>
    obtain ⟨l, hk, hl⟩ := hlink hwf
    exact ⟨_, exec_of_linkCommandStep hk hl .tick⟩
  | rxb k b =>
    obtain ⟨l, hk, hl⟩ := hlink hwf
    exact ⟨_, exec_rxb_of_inv b h hl⟩
  | crcu c b => exact ⟨_, exec_of_engineResult (.crcu c b)⟩
  | crc => exact ⟨_, exec_of_engineResult (.crc hseq)⟩
  | build q => exact ⟨_, exec_of_engineResult (.build q hseq)⟩

end Sys2Proof.Machine

/-! ## The step (00_scope.md, 60_exceptions.md): the host's commands, in issue order -/

namespace Sys2Proof.Machine

/-- Settles O8: the fetch puts the command's sequence on the port, and the decoder reads the command from its word. -/
theorem stepRunsDecodedCommand : Obligations.StepRunsDecodedCommand := by
  intro s c rest i hok hp hd
  simp [step, hok, State.fetch_of_pending hp, hd]

/-- Settles O9: there is nothing to fetch. -/
theorem stepWithoutCommandIdles : Obligations.StepWithoutCommandIdles := by
  intro s hok hp
  simp [step, hok, State.fetch_of_no_pending hp]

/-! ### Refusals (60_exceptions.md R183) -/

/-- A command on a link is refused for the missing link, or for what its link's step is refused for. -/
theorem State.onLink_eq_refused {s : State} {k : BitVec 8} {f : Link → Host.Outcome LinkStep Fault Refusal}
    {e : Refusal} (h : s.onLink k f = .refused e) : e = .noLink ∨ ∃ l, f l = .refused e := by
  unfold State.onLink at h
  split at h
  · exact .inl (Host.Outcome.refused.inj h).symm
  · split at h
    · cases h
    · cases h
    · cases h
      exact .inr ⟨_, ‹_›⟩

/-- A command on the sequence is refused for an overlong sequence only. -/
theorem State.onSequence_eq_refused {s : State} {f : List Byte → Event} {e : Refusal}
    (h : s.onSequence f = .refused e) : e = .sequenceTooLong := by
  unfold State.onSequence at h
  split at h
  · exact (Host.Outcome.refused.inj h).symm
  · cases h

/-- RXB on a link is refused for the payload length only (93_implementation_defined.md I6). -/
theorem Link.rxb_eq_refused {p : Params} {k : BitVec 8} {l : Link} {b : Byte} {e : Refusal}
    (h : l.rxb p k b = .refused e) : e = .payloadLength := by
  unfold Link.rxb at h
  split_ifs at h
  exact (Host.Outcome.refused.inj h).symm

/-- The three reasons for which a command is refused. -/
theorem exec_eq_refused {s : State} {i : Instr} {e : Refusal} (h : exec i s = .refused e) :
    e = .noLink ∨ e = .payloadLength ∨ e = .sequenceTooLong := by
  cases i with
  | lreset k =>
    obtain he | ⟨l, hl⟩ := State.onLink_eq_refused (exec_lreset s k ▸ h)
    · exact .inl he
    · cases hl
  | tick k =>
    obtain he | ⟨l, hl⟩ := State.onLink_eq_refused (exec_tick s k ▸ h)
    · exact .inl he
    · cases hl
  | rxb k b =>
    obtain he | ⟨l, hl⟩ := State.onLink_eq_refused (exec_rxb s k b ▸ h)
    · exact .inl he
    · exact .inr (.inl (Link.rxb_eq_refused hl))
  | crcu c b => cases h
  | crc => exact .inr (.inr (State.onSequence_eq_refused (exec_crc s ▸ h)))
  | build q => exact .inr (.inr (State.onSequence_eq_refused (exec_build s q ▸ h)))

/-- Settles O10: neither the decoder nor a command gives this reason. -/
theorem badInstanceRefusedExactly : Obligations.BadInstanceRefusedExactly := by
  intro s
  rw [← Params.ok_iff]
  constructor
  · intro h hok
    rw [step, if_pos hok] at h
    split at h
    · cases h
    · split at h
      · simpa using exec_eq_refused h
      · rename_i e he
        cases e <;> cases h
  · intro h
    rw [step, if_neg h]

/-! ### Pending commands (20_memory.md R47) -/

/-- No command reads the commands to come: with others pending it does the same (10_state.md R31, R23). -/
theorem exec_of_pending {s t : State} {i : Instr} (ps : List Command) (h : exec i s = .next t) :
    exec i { s with pending := ps } = .next { t with pending := ps } := by
  cases hi : i.link? with
  | none =>
    obtain ⟨e, he, rfl⟩ := exec_engine_inversion hi h
    exact exec_of_engineResult (s := { s with pending := ps }) (he.of_same_ports rfl rfl)
  | some k =>
    obtain ⟨l, r, hk, hl, hr, rfl⟩ := exec_link_inversion hi h
    exact exec_of_linkCommandStep (s := { s with pending := ps }) hk hl hr

/-- The first step of a run that completes. -/
theorem stepAll_succ {s s1 : State} (n : Nat) (h : step s = .next s1) :
    stepAll (n + 1) s = (stepAll n s1).map fun r => (r.1, (s1.out, s1.note) :: r.2) := by
  simp [stepAll, h]

/-- A run whose first step answers no state completes nowhere. -/
theorem stepAll_succ_of_stop {s : State} (n : Nat) (h : ∀ t, step s ≠ .next t) : stepAll (n + 1) s = none := by
  cases hs : step s with
  | next t => exact absurd hs (h t)
  | fault e => cases e
  | refused e => simp [stepAll, hs]

/-- Presented commands of which the first answers no state complete nowhere. -/
theorem doPresented_of_stop {c : Instr × List Byte} {s : State} (cs : List (Instr × List Byte))
    (h : ∀ t, exec c.1 { s with seq := c.2 } ≠ .next t) : doPresented (c :: cs) s = none := by
  cases hs : exec c.1 { s with seq := c.2 } with
  | next t => exact absurd hs (h t)
  | fault e => cases e
  | refused e => simp [doPresented, hs]

/-- As many steps as commands are pending do the commands in order, each on the sequence presented with it: by induction on
them, the first step being the first command's. -/
theorem stepAll_eq_doPresented (cs : List (Instr × List Byte)) (rest : List Command) : ∀ {s : State},
    s.params.ok = true → (∀ c ∈ cs, WellFormed s.params.numLinks c.1 = true) →
    s.pending = cs.map (fun c => { word := encode c.1, seq := c.2 }) ++ rest →
      stepAll cs.length s = doPresented cs { s with pending := rest } := by
  induction cs with
  | nil =>
    intro s _ _ hp
    rw [show rest = s.pending from hp.symm]
    rfl
  | cons c cs ih =>
    intro s hok hwf hp
    obtain ⟨hc, hcs⟩ := List.forall_mem_cons.1 hwf
    have hstep := stepRunsDecodedCommand s _ _ c.1 hok hp (decode_encode hc)
    rw [List.length_cons]
    by_cases hnext : ∃ t, step s = .next t
    · obtain ⟨t, ht⟩ := hnext
      obtain ⟨hparams, hpend, -⟩ := exec_keeps_ports (hstep ▸ ht)
      rw [stepAll_succ _ ht, ih (hparams ▸ hok) (hparams ▸ hcs) hpend,
        doPresented_cons cs (exec_of_pending rest (hstep ▸ ht))]
    · have hstop : ∀ t, step s ≠ .next t := fun t ht => hnext ⟨t, ht⟩
      rw [stepAll_succ_of_stop _ hstop, doPresented_of_stop]
      intro t ht
      exact hstop _ (hstep.trans (exec_of_pending _ ht))

/-- Commands that all present the sequence on the port are done as the commands alone. -/
theorem doPresented_same_seq (is : List Instr) : ∀ s : State, doPresented (is.map fun i => (i, s.seq)) s = doAll is s := by
  induction is with
  | nil => exact fun s => rfl
  | cons i is ih =>
    intro s
    rw [List.map_cons]
    cases hx : exec i s with
    | next t =>
      obtain ⟨-, -, hseq⟩ := exec_keeps_ports hx
      rw [doAll_cons is hx, doPresented_cons (s1 := t) _ hx, ← hseq, ih]
    | fault e => cases e
    | refused e => simp [doPresented, doAll, hx]

/-- Settles O11: the second clause is the first with one sequence for all. -/
theorem pendingCommandsRunInOrder : Obligations.PendingCommandsRunInOrder := by
  refine ⟨fun s cs rest hok hwf hp => stepAll_eq_doPresented cs rest hok hwf hp, fun s is rest hok hwf hp => ?_⟩
  have h := stepAll_eq_doPresented (is.map fun i => (i, s.seq)) rest hok
    (List.forall_mem_map.2 hwf) (by rw [hp, List.map_map]; rfl)
  rw [List.length_map] at h
  exact h.trans (doPresented_same_seq is { s with pending := rest })

end Sys2Proof.Machine

/-! ## Frame Parser (41_parser.md): phases, drops and what a link does not show -/

namespace Sys2Proof.Machine

/-! ### What every RXB does, and where a link command is refused -/

/-- Settles O25: RXB tests exactly this case before it chooses an arm. -/
theorem rxbRefusesUndefinedPayload : Obligations.RxbRefusesUndefinedPayload := by
  intro s k b l hk hl hp
  constructor
  · intro h
    simp [exec_rxb, State.onLink, State.link?_eq_some.2 ⟨hk, hl⟩, Link.rxb, Link.payloadUndefined, hp, overhead, h]
  · intro h
    by_contra hlt
    have hx := exec_rxb_of_arm (b := b) hk hl (fun _ => Nat.not_le.1 hlt) rfl
    rw [hx] at h
    cases h

/-- Settles O27: every step of RXB restores the countdown after its arm. -/
theorem everyByteRestoresCountdown : Obligations.EveryByteRestoresCountdown := by
  intro s t k b h
  obtain ⟨l, r, -, hl, hr, rfl⟩ := exec_link_inversion rfl h
  cases hr with
  | rxb b hu => exact ⟨_, State.commit_links_same _ hl, rfl⟩

/-- Settles O28: the three commands are commands on a link, and the link is missing. -/
theorem linkCommandsRefuseNoLink : Obligations.LinkCommandsRefuseNoLink :=
  fun s k b h => ⟨(exec_lreset s k).trans (State.onLink_of_no_link h), (exec_tick s k).trans (State.onLink_of_no_link h),
    (exec_rxb s k b).trans (State.onLink_of_no_link h)⟩

/-- Settles O56: the arms' cases in which the byte does not complete a field. -/
theorem unreachableBuffersOnlyGrow : Obligations.UnreachableBuffersOnlyGrow := by
  intro s k b l hk hl
  have hx {r : LinkStep} (hp : l.phase ≠ .payload) (hr : ArmStep s.params k l b r) :=
    exec_rxb_of_arm hk hl (fun h => absurd h hp) hr.rxbArm_eq
  refine ⟨fun hp h => ?_, fun hp h => ?_, fun hp h => ?_⟩
  · exact hx (by simp [hp]) (.preGrown hp h)
  · exact hx (by simp [hp]) (.hdrGrown hp (by omega) (by omega))
  · exact hx (by simp [hp]) (.cksGrown hp (by omega))

/-! ### Phases (10_state.md R22, R24) -/

/-- The ways a phase may go (R24). -/
def PhaseMove (x y : Phase) : Prop :=
  y = x ∨ y = .idle ∨ (x = .idle ∧ y = .syncing) ∨ (x = .syncing ∧ y = .header) ∨ (x = .header ∧ y = .payload) ∨
    (x = .payload ∧ y = .checksum)

/-- An arm of RXB moves the phase one of these ways. -/
theorem ArmStep.phaseMove {p : Params} {k : BitVec 8} {l : Link} {b : Byte} {r : LinkStep} (h : ArmStep p k l b r) :
    PhaseMove l.phase r.link.phase := by
  unfold PhaseMove
  cases h with
  | begun hp _ => exact .inr (.inr (.inl ⟨hp, rfl⟩))
  | noise _ _ => exact .inl rfl
  | synced hp _ => exact .inr (.inr (.inr (.inl ⟨hp, rfl⟩)))
  | unsynced _ _ _ => exact .inr (.inl rfl)
  | preGrown _ _ => exact .inl rfl
  | lenSmall _ _ _ _ => exact .inr (.inl rfl)
  | lenLarge _ _ _ _ _ => exact .inr (.inl rfl)
  | lenRead _ _ _ _ _ => exact .inl rfl
  | qidRead hp _ => exact .inr (.inr (.inr (.inr (.inl ⟨hp, rfl⟩))))
  | hdrGrown _ _ _ => exact .inl rfl
  | payEnded hp _ => exact .inr (.inr (.inr (.inr (.inr ⟨hp, rfl⟩))))
  | payGrown _ _ => exact .inl rfl
  | delivered _ _ _ => exact .inr (.inl rfl)
  | badCrc _ _ _ => exact .inr (.inl rfl)
  | cksGrown _ _ => exact .inl rfl

/-- A tick keeps the phase or returns to IDLE. -/
theorem TickStep.phaseMove {l : Link} {r : LinkStep} (h : TickStep l r) : PhaseMove l.phase r.link.phase := by
  cases h with
  | still _ => exact .inl rfl
  | down _ => exact .inl rfl
  | expired _ _ => exact .inr (.inl rfl)
  | expiredIdle _ _ => exact .inr (.inl rfl)

/-- Every command on a link moves the phase one of these ways. -/
theorem LinkCommandStep.phaseMove {p : Params} {k : BitVec 8} {l : Link} {i : Instr} {r : LinkStep}
    (h : LinkCommandStep p k l i r) : PhaseMove l.phase r.link.phase := by
  cases h with
  | lreset => exact .inr (.inl rfl)
  | tick => exact l.tickStep.phaseMove
  | rxb b _ => exact (l.armStep p k b).phaseMove

/-- What a command does to one link: it leaves it alone, or takes a step of that link. -/
theorem exec_on_link {s t : State} {i : Instr} {j : Nat} {l : Link} (h : exec i s = .next t)
    (hl : s.links[j]? = some l) :
    t.links[j]? = some l ∨
      ∃ (k : BitVec 8) (r : LinkStep), i.link? = some k ∧ k.toNat = j ∧ LinkCommandStep s.params k l i r ∧
        t = s.commit k r := by
  cases hi : i.link? with
  | none =>
    obtain ⟨e, -, rfl⟩ := exec_engine_inversion hi h
    exact .inl hl
  | some k =>
    obtain ⟨l', r, -, hl', hr, rfl⟩ := exec_link_inversion hi h
    by_cases hj : j = k.toNat
    · subst hj
      obtain rfl := Option.some.inj (hl'.symm.trans hl)
      exact .inr ⟨k, r, rfl, rfl, hr, rfl⟩
    · exact .inl ((s.commit_links_other r hj).trans hl)

/-- Settles O33: a command leaves a link alone or takes a step of it, which moves its phase only these ways. -/
theorem phaseStaysAdvancesOrReturns : Obligations.PhaseStaysAdvancesOrReturns := by
  intro s t i k l l' h hl hl'
  obtain ht | ⟨k', r, -, rfl, hr, rfl⟩ := exec_on_link h hl
  · obtain rfl := Option.some.inj (hl'.symm.trans ht)
    exact .inl rfl
  · rw [State.commit_links_same r hl] at hl'
    obtain rfl := Option.some.inj hl'
    exact hr.phaseMove

/-! ### Drops (60_exceptions.md R181) -/

/-- Settles O35: the annotated steps of RXB's arms and of the tick, one for each row of R181. -/
theorem dropsHaveTheirCauses : Obligations.DropsHaveTheirCauses := by
  intro s t i d h hd
  cases hi : i.link? with
  | none =>
    obtain ⟨e, -, rfl⟩ := exec_engine_inversion hi h
    cases hd
  | some k =>
    obtain ⟨l, r, -, hl, hr, rfl⟩ := exec_link_inversion hi h
    rw [State.commit_note] at hd
    cases hr with
    | lreset => cases hd
    | tick =>
      have hstep := l.tickStep
      generalize l.tick = r at hstep hd ⊢
      cases hstep with
      | still hc => cases hd
      | down hc => cases hd
      | expired hc hp => cases hd; exact ⟨k, l, hl, rfl, rfl, hc, hp, State.commit_links_same _ hl⟩
      | expiredIdle hc hp => cases hd
    | rxb b hu =>
      have hstep := l.armStep s.params k b
      generalize l.rxbArm s.params k b = r at hstep hd ⊢
      refine ⟨k, l, hl, ?_⟩
      rw [State.commit_out, LinkStep.restore_out, State.commit_links_same _ hl]
      cases hstep with
      | begun hp hb => cases hd
      | noise hp hb => cases hd; exact ⟨rfl, b, rfl, hp, hb, rfl⟩
      | synced hp hb => cases hd
      | unsynced hp h1 hb => cases hd; exact ⟨rfl, b, rfl, hp, h1, hb, rfl⟩
      | preGrown hp h1 => cases hd
      | lenSmall a hp hh hlen =>
        cases hd
        exact ⟨rfl, a, b, rfl, hp, hh, toNat_fromLe16 a b ▸ hlen, rfl⟩
      | lenLarge a hp hh hlen hlen2 =>
        cases hd
        exact ⟨rfl, a, b, rfl, hp, hh, toNat_fromLe16 a b ▸ hlen2, rfl⟩
      | lenRead a hp hh hlen hlen2 => cases hd
      | qidRead hp hh => cases hd
      | hdrGrown hp h1 h2 => cases hd
      | payEnded hp hlen => cases hd
      | payGrown hp hlen => cases hd
      | delivered hp h1 hb => cases hd
      | badCrc hp h1 hb => cases hd; exact ⟨rfl, b, rfl, hp, h1, hb, rfl⟩
      | cksGrown hp h1 => cases hd

/-! ### The two tests of the HEADER arm (41_parser.md R133) -/

/-- The length test is made on a header of two bytes only. -/
theorem Link.headerLength_of_ne {p : Params} {l : Link} (h : l.hdr.length ≠ 2) : l.headerLength p = l.quiet := if_neg h

/-- The queue-id test is made on a header of three bytes only. -/
theorem Link.headerQid_of_ne {l : Link} {b : Byte} (h : l.hdr.length ≠ 3) : l.headerQid b = l := if_neg h

/-- The queue-id test leaves the header as it is. -/
theorem Link.headerQid_hdr (l : Link) (b : Byte) : (l.headerQid b).hdr = l.hdr := by
  unfold Link.headerQid
  split_ifs <;> rfl

/-- The length test leaves no header of three bytes where there was none. -/
theorem Link.headerLength_hdr (p : Params) (l : Link) :
    (l.headerLength p).link.hdr = l.hdr ∨ (l.headerLength p).link.hdr = [] := by
  simp only [Link.headerLength]
  split_ifs <;> simp

/-- Settles O36: a header of two bytes meets the length test only and one of three the queue-id test only, and neither
test makes the one into the other. -/
theorem headerTestsCommute : Obligations.HeaderTestsCommute := by
  intro p l b _
  unfold Link.rxbHeader
  generalize { l with hdr := l.hdr ++ [b] } = l1
  by_cases h2 : l1.hdr.length = 2
  · have h3 : (l1.headerLength p).link.hdr.length ≠ 3 := by
      obtain h | h := l1.headerLength_hdr p <;> rw [h]
      · rw [h2]; decide
      · decide
    have hq : l1.headerQid b = l1 := Link.headerQid_of_ne (by rw [h2]; decide)
    simp only [Link.headerQid_of_ne h3, hq]
  · rw [Link.headerLength_of_ne h2, Link.headerLength_of_ne (l1.headerQid_hdr b ▸ h2)]
    rfl

/-! ### What a link has not written, it does not read (10_state.md R25) -/

/-- Every link is alike itself. -/
theorem Link.alike_refl (l : Link) : l.alike l := ⟨rfl, fun _ => rfl, fun _ => rfl⟩

/-- A link is alike one with another `tlen` and `qid` exactly where it has not written what differs. -/
theorem Link.alike_iff {l l' : Link} : l.alike l' ↔
    ∃ (t : Half) (q : Byte), l' = { l with tlen := t, qid := q } ∧ (l.tlenWritten → t = l.tlen) ∧
      (l.qidWritten → q = l.qid) := by
  constructor
  · rintro ⟨h, ht, hq⟩
    exact ⟨_, _, h, ht, hq⟩
  · rintro ⟨t, q, rfl, ht, hq⟩
    exact ⟨rfl, ht, hq⟩

/-- Two steps show the same and leave links that are alike. -/
def LinkStep.alike (r r' : LinkStep) : Prop := r'.out = r.out ∧ r'.note = r.note ∧ r.link.alike r'.link

/-- Every step is alike itself. -/
theorem LinkStep.alike_refl (r : LinkStep) : r.alike r := ⟨rfl, rfl, r.link.alike_refl⟩

/-- A link is alike no other once its queue-id is written, which comes after its length. -/
theorem Link.alike.eq {l l' : Link} (h : l.alike l') (hw : l.qidWritten) : l' = l := by
  obtain ⟨t, q, rfl, ht, hq⟩ := Link.alike_iff.1 h
  rw [ht (.inr hw), hq hw]

/-- No tick reads `tlen` or `qid`. -/
theorem TickStep.of_alike {l l' : Link} {r : LinkStep} (h : TickStep l r) (ha : l.alike l') :
    ∃ r', TickStep l' r' ∧ r.alike r' := by
  obtain ⟨t, q, rfl, ht, hq⟩ := Link.alike_iff.1 ha
  cases h with
  | still hc => exact ⟨_, .still hc, rfl, rfl, rfl, ht, hq⟩
  | down hc => exact ⟨_, .down hc, rfl, rfl, rfl, ht, hq⟩
  | expired hc hp => exact ⟨_, .expired hc hp, LinkStep.alike_refl _⟩
  | expiredIdle hc hp => exact ⟨_, .expiredIdle hc hp, LinkStep.alike_refl _⟩

/-- No arm before the length's second byte reads `tlen` or `qid`; that byte writes `tlen` and the next one `qid`; and from
then on a link is alike itself only. -/
theorem ArmStep.of_alike {p : Params} {k : BitVec 8} {l l' : Link} {b : Byte} {r : LinkStep} (h : ArmStep p k l b r)
    (hrow : l.rowInv p = true) (ha : l.alike l') : ∃ r', ArmStep p k l' b r' ∧ r.alike r' := by
  have hsame (hw : l.qidWritten) : ∃ r', ArmStep p k l' b r' ∧ r.alike r' := by
    rw [ha.eq hw]
    exact ⟨r, h, r.alike_refl⟩
  obtain ⟨t, q, rfl, ht, hq⟩ := Link.alike_iff.1 ha
  cases h with
  | begun hp h =>
    exact ⟨_, .begun hp h, rfl, rfl, rfl, by simp [Link.tlenWritten], by simp [Link.qidWritten]⟩
  | noise hp h => exact ⟨_, .noise hp h, rfl, rfl, rfl, ht, hq⟩
  | synced hp h =>
    obtain ⟨-, hhdr, -⟩ := (Link.rowInv_syncing hp).1 hrow
    exact ⟨_, .synced hp h, rfl, rfl, rfl, by simp [Link.tlenWritten, hhdr], by simp [Link.qidWritten]⟩
  | unsynced hp h1 h => exact ⟨_, .unsynced hp h1 h, LinkStep.alike_refl _⟩
  | preGrown hp h1 => exact ⟨_, .preGrown hp h1, rfl, rfl, rfl, ht, hq⟩
  | lenSmall a hp hh h => exact ⟨_, .lenSmall a hp hh h, LinkStep.alike_refl _⟩
  | lenLarge a hp hh h h2 => exact ⟨_, .lenLarge a hp hh h h2, LinkStep.alike_refl _⟩
  | lenRead a hp hh h h2 => exact ⟨_, .lenRead a hp hh h h2, rfl, rfl, rfl, fun _ => rfl, hq⟩
  | qidRead hp hh => exact ⟨_, .qidRead hp hh, rfl, rfl, rfl, fun _ => ht (.inl ⟨hp, hh.ge⟩), fun _ => rfl⟩
  | hdrGrown hp h1 h2 =>
    refine ⟨_, .hdrGrown hp h1 h2, rfl, rfl, rfl, fun hw => ht ?_, hq⟩
    simp only [Link.tlenWritten, Link.quiet_link, List.length_append, List.length_singleton] at hw ⊢
    exact hw.imp_left fun hw => ⟨hp, by omega⟩
  | payEnded hp h => exact hsame (.inl hp)
  | payGrown hp h => exact hsame (.inl hp)
  | delivered hp h1 h => exact hsame (.inr hp)
  | badCrc hp h1 h => exact hsame (.inr hp)
  | cksGrown hp h1 => exact hsame (.inr hp)

/-- Settles O37: the two links take steps of the same kind. -/
theorem unwrittenFieldsUnobservable : Obligations.UnwrittenFieldsUnobservable := by
  intro p k l l' b h ha
  obtain ⟨r, hr, htick⟩ := l.tickStep.of_alike ha
  obtain ⟨r', hr', hout, hnote, hlink⟩ := (l.armStep p k b).of_alike h.1 ha
  refine ⟨⟨_, _, Link.rxb_eq_next.2 ⟨Link.payload_length_of_inv h, rfl⟩, Link.rxb_eq_next.2 ⟨?_, rfl⟩, ?_⟩, ?_⟩
  · intro hp
    obtain ⟨hl', htlen, -⟩ := ha
    have hphase : l.phase = .payload := by rwa [hl'] at hp
    rw [htlen (.inr (.inl hphase))]
    exact Link.payload_length_of_inv h hphase
  · rw [hr'.rxbArm_eq]
    obtain ⟨t, q, hrl, ht, hq⟩ := Link.alike_iff.1 hlink
    exact ⟨hout, hnote, by rw [LinkStep.restore_link, LinkStep.restore_link, hrl]; exact ⟨rfl, ht, hq⟩⟩
  · rw [hr.tick_eq]
    exact htick

/-! ### Restoring the countdown (41_parser.md R137) -/

/-- With the countdown restored RXB does the same whatever it was (R124). -/
theorem Link.restore_rxbArm_countdown {p : Params} {k : BitVec 8} {l : Link} {b : Byte} (c : Nat) :
    (({ l with cd := c } : Link).rxbArm p k b).restore p = (l.rxbArm p k b).restore p := by
  rw [Link.rxbArm_countdown]
  rfl

/-- Bytes fed with the countdown restored on each do the same whatever it was before the first. -/
theorem feedLink_restore_countdown {p : Params} {k : BitVec 8} {l : Link} (c : Nat) {bytes : List Byte}
    (h : bytes ≠ []) :
    feedLink (fun l b => (l.rxbArm p k b).restore p) bytes { l with cd := c } =
      feedLink (fun l b => (l.rxbArm p k b).restore p) bytes l := by
  obtain ⟨b, bs, rfl⟩ := List.exists_cons_of_ne_nil h
  simp only [feedLink, Link.restore_rxbArm_countdown]

/-- Settles O50: by induction on the bytes; what the first byte leaves differs only in the countdown, which the rest of the
bytes, if there are any, do not depend on. -/
theorem restorePerByteEqualsPerCycle : Obligations.RestorePerByteEqualsPerCycle := by
  intro p k l bytes
  induction bytes generalizing l with
  | nil => exact fun h => absurd rfl h
  | cons b bs ih =>
    intro _
    by_cases hbs : bs = []
    · subst hbs
      exact ⟨rfl, rfl⟩
    · obtain ⟨hlink, hshown⟩ := ih (l.rxbArm p k b).link hbs
      have hc := feedLink_restore_countdown (p := p) (k := k) (l := (l.rxbArm p k b).link) p.timeout hbs
      simp only [feedLink, LinkStep.restore_link, LinkStep.restore_out, LinkStep.restore_note, hc]
      exact ⟨hlink, congrArg _ hshown⟩

end Sys2Proof.Machine

/-! ## Runs (41_parser.md R136, 10_state.md R28, R33): what one link sees of a run of commands -/

namespace Sys2Proof.Machine

/-! ### The run of one link -/

/-- A list of commands completes exactly where the first does and the rest does after it (00_scope.md R10). -/
theorem doAll_cons_eq_some {i : Instr} {is : List Instr} {s t : State} {shown : List Shown} :
    doAll (i :: is) s = some (t, shown) ↔
      ∃ (s1 : State) (rest : List Shown), exec i s = .next s1 ∧ doAll is s1 = some (t, rest) ∧
        shown = (s1.out, s1.note) :: rest := by
  constructor
  · intro h
    cases hx : exec i s with
    | next s1 =>
      rw [doAll_cons is hx, Option.map_eq_some_iff] at h
      obtain ⟨⟨t', rest⟩, hrest, heq⟩ := h
      cases heq
      exact ⟨s1, rest, rfl, hrest, rfl⟩
    | fault e => cases e
    | refused e => simp [doAll, hx] at h
  · rintro ⟨s1, rest, hx, hrest, rfl⟩
    rw [doAll_cons is hx, hrest]
    rfl

/-- The commands addressed to link j, done on its record one after the other with what each shows. -/
inductive LinkRun (p : Params) (j : BitVec 8) : List Instr → Option Link → Option Link → List Shown → Prop where
  | nil (x : Option Link) : LinkRun p j [] x x []
  | cons {i : Instr} {is : List Instr} {l : Link} {r : LinkStep} {y : Option Link} {shown : List Shown}
      (h : LinkCommandStep p j l i r) (hrest : LinkRun p j is (some r.link) y shown) :
      LinkRun p j (i :: is) (some l) y ((r.out, r.note) :: shown)

/-- A link command takes one step only. -/
theorem LinkCommandStep.unique {p : Params} {k : BitVec 8} {l : Link} {i : Instr} {r r' : LinkStep}
    (h : LinkCommandStep p k l i r) (h' : LinkCommandStep p k l i r') : r = r' := by
  cases h <;> cases h' <;> rfl

/-- Where a link's run ends and what it shows is determined by where it begins. -/
theorem LinkRun.unique {p : Params} {j : BitVec 8} {is : List Instr} {x y y' : Option Link} {shown shown' : List Shown}
    (h : LinkRun p j is x y shown) (h' : LinkRun p j is x y' shown') : y = y' ∧ shown = shown' := by
  induction h generalizing shown' with
  | nil x => cases h'; exact ⟨rfl, rfl⟩
  | cons hstep _ ih =>
    cases h' with
    | cons hstep' hrest' =>
      obtain rfl := hstep.unique hstep'
      obtain ⟨rfl, rfl⟩ := ih hrest'
      exact ⟨rfl, rfl⟩

/-- A command that is not on link j leaves it alone (R120). -/
theorem exec_other_link {s t : State} {i : Instr} {j : BitVec 8} (h : exec i s = .next t) (hj : i.link? ≠ some j) :
    t.links[j.toNat]? = s.links[j.toNat]? := by
  cases hi : i.link? with
  | none =>
    obtain ⟨e, -, rfl⟩ := exec_engine_inversion hi h
    rfl
  | some k =>
    obtain ⟨l, r, -, -, -, rfl⟩ := exec_link_inversion hi h
    exact s.commit_links_other r fun hjk => hj (hi.trans (congrArg some (BitVec.eq_of_toNat_eq hjk.symm)))

/-- What a command on link j shows is shown on link j. -/
theorem shownOn_cons_same {j : BitVec 8} {i : Instr} (is : List Instr) (x : Shown) (shown : List Shown)
    (h : i.link? = some j) : shownOn j (i :: is) (x :: shown) = x :: shownOn j is shown := by
  simp [shownOn, h]

/-- What another command shows is not. -/
theorem shownOn_cons_other {j : BitVec 8} {i : Instr} (is : List Instr) (x : Shown) (shown : List Shown)
    (h : i.link? ≠ some j) : shownOn j (i :: is) (x :: shown) = shownOn j is shown := by
  simp [shownOn, h]

/-- A run of the machine is, on link j, the run of the commands addressed to it: by induction on the commands. -/
theorem linkRun_of_doAll (j : BitVec 8) {is : List Instr} : ∀ {s t : State} {shown : List Shown},
    doAll is s = some (t, shown) →
      LinkRun s.params j (is.filter fun i => i.link? == some j) s.links[j.toNat]? t.links[j.toNat]?
        (shownOn j is shown) := by
  induction is with
  | nil =>
    intro s t shown h
    cases h
    exact .nil _
  | cons i is ih =>
    intro s t shown h
    obtain ⟨s1, rest, hx, hrest, rfl⟩ := doAll_cons_eq_some.1 h
    have hrun := ih hrest
    rw [(exec_keeps_ports hx).1] at hrun
    by_cases hi : i.link? = some j
    · obtain ⟨l, r, -, hl, hr, rfl⟩ := exec_link_inversion hi hx
      rw [List.filter_cons_of_pos (by simp [hi]), shownOn_cons_same _ _ _ hi, hl]
      rw [State.commit_links_same r hl] at hrun
      exact .cons hr hrun
    · rw [List.filter_cons_of_neg (by simp [hi]), shownOn_cons_other _ _ _ hi]
      rwa [exec_other_link hx hi] at hrun

/-- Settles O48: on link j both runs are the one run of the commands addressed to it. -/
theorem linksAreIsolated : Obligations.LinksAreIsolated := by
  intro s s' t t' is is' shown shown' j hp hl hfilter h h'
  have hrun := linkRun_of_doAll j h
  rw [hp, hl, hfilter] at hrun
  exact hrun.unique (linkRun_of_doAll j h')

/-! ### The running CRC register (10_state.md R33) -/

section
variable (l : Link)

@[simp] theorem CrcLink.of_phase : (CrcLink.of l).phase = l.phase := rfl
@[simp] theorem CrcLink.of_crc : (CrcLink.of l).crc = crc16 l.covered := rfl
@[simp] theorem CrcLink.of_count : (CrcLink.of l).count = l.hdr.length := rfl
@[simp] theorem CrcLink.of_low : (CrcLink.of l).low = l.hdr.getD 0 0#8 := rfl
@[simp] theorem CrcLink.of_pay : (CrcLink.of l).pay = l.pay := rfl
@[simp] theorem CrcLink.of_cks : (CrcLink.of l).cks = l.cks := rfl
@[simp] theorem CrcLink.of_tlen : (CrcLink.of l).tlen = l.tlen := rfl
@[simp] theorem CrcLink.of_qid : (CrcLink.of l).qid = l.qid := rfl
@[simp] theorem CrcLink.of_cd : (CrcLink.of l).cd = l.cd := rfl
end

section
variable {p : Params} {k : BitVec 8} {l : Link} {b : Byte}

/-- On every link of R24's table the running-CRC implementation's RXB is the picture of the rules' one: a step that appends a
covered byte updates the register with it, and the others keep it or return to the empty link's. -/
theorem CrcLink.rxb_of (h : l.Inv p) :
    (CrcLink.of l).rxb p k b =
      (CrcLink.of ((l.rxbArm p k b).restore p).link, ((l.rxbArm p k b).out, (l.rxbArm p k b).note)) := by
  have hrow := h.1
  have hstep := l.armStep p k b
  generalize l.rxbArm p k b = r at hstep
  cases hstep with
  | begun hp hb =>
    obtain ⟨hpre, hhdr, hpay, -⟩ := (Link.rowInv_idle hp).1 hrow
    simp [CrcLink.rxb, CrcLink.of, hp, hb, Link.covered, hpre, hhdr, hpay, crc16]
  | noise hp hb =>
    simp [CrcLink.rxb, hp, hb]
    rfl
  | synced hp hb =>
    obtain ⟨hpre, hhdr, hpay, -⟩ := (Link.rowInv_syncing hp).1 hrow
    have hb1 : b = p.p1 := by simpa [hpre] using hb
    simp [CrcLink.rxb, CrcLink.of, hp, hb1, Link.covered, hpre, hhdr, hpay, crc16]
  | unsynced hp h1 hb =>
    obtain ⟨hpre, -⟩ := (Link.rowInv_syncing hp).1 hrow
    have hb1 : b ≠ p.p1 := by simpa [hpre] using hb
    simp [CrcLink.rxb, hp, hb1]
    rfl
  | preGrown hp h1 =>
    obtain ⟨hpre, -⟩ := (Link.rowInv_syncing hp).1 hrow
    exact absurd (by rw [hpre]; rfl) h1
  | lenSmall a hp hh hlen =>
    rw [toNat_fromLe16] at hlen
    simp [CrcLink.rxb, hp, hh, hlen]
    rfl
  | lenLarge a hp hh hlen hlen2 =>
    rw [toNat_fromLe16] at hlen hlen2
    simp [CrcLink.rxb, hp, hh, Nat.not_le.2 hlen, hlen2]
    rfl
  | lenRead a hp hh hlen hlen2 =>
    obtain ⟨-, hpay, -⟩ := (Link.rowInv_header hp).1 hrow
    rw [toNat_fromLe16] at hlen hlen2
    simp [CrcLink.rxb, CrcLink.of, hp, hh, Nat.not_le.2 hlen, Nat.not_lt.2 hlen2, Link.covered, hpay, crc16]
  | qidRead hp hh =>
    obtain ⟨-, hpay, -⟩ := (Link.rowInv_header hp).1 hrow
    simp [CrcLink.rxb, CrcLink.of, hp, hh, Link.covered, hpay, crc16]
  | hdrGrown hp h1 h2 =>
    obtain ⟨-, hpay, -, -, hhdr⟩ := (Link.rowInv_header hp).1 hrow
    have h0 : l.hdr = [] := List.length_eq_zero_iff.1 (by omega)
    simp [CrcLink.rxb, CrcLink.of, hp, h0, Link.covered, hpay, crc16]
  | payEnded hp hlen =>
    have hmin := Link.payload_length_of_inv h hp
    have hlen' : l.pay.length + 1 + overhead = l.tlen.toNat := by omega
    simp [CrcLink.rxb, CrcLink.of, hp, hlen', Link.covered, crc16]
  | payGrown hp hlen =>
    have hlen' : l.pay.length + 1 + overhead ≠ l.tlen.toNat := by omega
    simp [CrcLink.rxb, CrcLink.of, hp, hlen', Link.covered, crc16]
  | delivered hp h1 hb =>
    have h0 : l.cks ≠ [] := by rintro h0; simp [h0] at h1
    simp [CrcLink.rxb, hp, h0, hb]
    rfl
  | badCrc hp h1 hb =>
    have h0 : l.cks ≠ [] := by rintro h0; simp [h0] at h1
    simp [CrcLink.rxb, hp, h0, hb]
    rfl
  | cksGrown hp h1 =>
    obtain ⟨-, hcks, -⟩ := (Link.rowInv_checksum hp).1 hrow
    have h0 : l.cks = [] := List.length_eq_zero_iff.1 (by omega)
    simp [CrcLink.rxb, CrcLink.of, hp, h0, Link.covered]

/-- The implementation's tick is the picture of the rules' one. -/
theorem CrcLink.tick_of (l : Link) : (CrcLink.of l).tick = (CrcLink.of l.tick.link, (l.tick.out, l.tick.note)) := by
  have hstep := l.tickStep
  generalize l.tick = r at hstep
  cases hstep with
  | still hc =>
    simp [CrcLink.tick, hc]
  | down hc =>
    simp [CrcLink.tick, show l.cd ≠ 0 by omega, show l.cd ≠ 1 by omega]
    rfl
  | expired hc hp =>
    simp [CrcLink.tick, hc, hp]
  | expiredIdle hc hp =>
    simp [CrcLink.tick, hc, hp]

/-- The implementation's reset is the picture of the rules' one, whatever the link held. -/
theorem CrcLink.lreset_of (l : Link) : (CrcLink.of l).lreset = (CrcLink.of l.lreset, silent) := rfl

/-- Every command on a link keeps the picture and shows the same (R33). -/
theorem LinkCommandStep.crcLink_command {i : Instr} {r : LinkStep} (h : l.Inv p) (hr : LinkCommandStep p k l i r) :
    (CrcLink.of l).command p k i = (CrcLink.of r.link, (r.out, r.note)) := by
  cases hr with
  | lreset => exact CrcLink.lreset_of l
  | tick => exact CrcLink.tick_of l
  | rxb b hu => exact CrcLink.rxb_of h
end

/-- Every run of a link keeps the picture and shows the same (R33). -/
theorem LinkRun.crcLink_run {p : Params} {j : BitVec 8} {is : List Instr} {x y : Option Link} {shown : List Shown}
    (hok : p.ok = true) (hrun : LinkRun p j is x y shown) : ∀ {l : Link}, x = some l → l.Inv p →
      ∃ l', y = some l' ∧ CrcLink.run p j is (CrcLink.of l) = (CrcLink.of l', shown) := by
  induction hrun with
  | nil x =>
    intro l hl _
    exact ⟨l, hl, rfl⟩
  | cons hr _ ih =>
    intro l hl h
    obtain rfl := Option.some.inj hl
    obtain ⟨l', hl', hrest⟩ := ih rfl (hr.inv hok h)
    refine ⟨l', hl', ?_⟩
    rw [CrcLink.run, hr.crcLink_command h, hrest]

/-- Settles O51: each command keeps the picture, and a run of the machine is on link j the run of the commands addressed to
it. -/
theorem runningCrcImplementationEquivalent : Obligations.RunningCrcImplementationEquivalent := by
  refine ⟨fun p k l b h => ⟨_, Link.rxb_eq_next.2 ⟨Link.payload_length_of_inv h, rfl⟩, CrcLink.rxb_of h⟩,
    fun p l h => ⟨CrcLink.tick_of l, CrcLink.lreset_of l⟩, fun s t j l is shown h hl hrun => ?_⟩
  exact (linkRun_of_doAll j hrun).crcLink_run h.1 hl (h.link hl)

/-! ### The countdown of an IDLE link (10_state.md R28) -/

/-- A tick takes the countdown of an empty link down, and shows nothing. -/
theorem Link.tick_idleWith (c : Nat) : (Link.idleWith c).tick = (Link.idleWith (c - 1)).quiet := by
  rcases Nat.lt_trichotomy c 1 with h | rfl | h
  · obtain rfl := Nat.lt_one_iff.1 h
    rfl
  · rfl
  · exact Link.tick_of_two_le h

/-- Two states that differ at most in the countdown of link k, and there only while it is empty. -/
def SameButIdleCountdown (k : BitVec 8) (s s' : State) : Prop :=
  s' = s ∨ ∃ c c', s.links[k.toNat]? = some (Link.idleWith c) ∧
    s' = { s with links := s.links.set k.toNat (Link.idleWith c') }

/-- What two such states show last is the same. -/
theorem SameButIdleCountdown.shown {k : BitVec 8} {s s' : State} (h : SameButIdleCountdown k s s') :
    s'.out = s.out ∧ s'.note = s.note := by
  obtain rfl | ⟨c, c', -, rfl⟩ := h <;> exact ⟨rfl, rfl⟩

/-- A command on an empty link does the same whatever its countdown, or leaves it empty and shows nothing. -/
theorem LinkCommandStep.of_idleWith {p : Params} {k : BitVec 8} {c : Nat} {i : Instr} {r : LinkStep}
    (h : LinkCommandStep p k (Link.idleWith c) i r) (c' : Nat) :
    ∃ r', LinkCommandStep p k (Link.idleWith c') i r' ∧
      (r' = r ∨ ∃ d d', r = (Link.idleWith d).quiet ∧ r' = (Link.idleWith d').quiet) := by
  cases h with
  | lreset => exact ⟨_, .lreset, .inl rfl⟩
  | tick => exact ⟨_, .tick, .inr ⟨_, _, Link.tick_idleWith c, Link.tick_idleWith c'⟩⟩
  | rxb b hu => exact ⟨_, .rxb b nofun, .inl (Link.restore_rxbArm_countdown (l := Link.idleWith c) c')⟩

/-- A command does the same to two such states: on another link, or on none, it does not read link k; a byte or a reset makes
the two links equal, and a tick shows nothing on either. -/
theorem SameButIdleCountdown.step {k : BitVec 8} {s s' t t' : State} {i : Instr} (h : SameButIdleCountdown k s s')
    (hx : exec i s = .next t) (hx' : exec i s' = .next t') : SameButIdleCountdown k t t' := by
  obtain rfl | ⟨c, c', hl, hs'⟩ := h
  · exact .inl (Host.Outcome.next.inj (hx'.symm.trans hx))
  have hparams : s'.params = s.params := by rw [hs']
  have hseq : s'.seq = s.seq := by rw [hs']
  have hlinks : s'.links = s.links.set k.toNat (Link.idleWith c') := by rw [hs']
  cases hi : i.link? with
  | none =>
    obtain ⟨e, he, rfl⟩ := exec_engine_inversion hi hx
    rw [exec_of_engineResult (he.of_same_ports hparams hseq)] at hx'
    obtain rfl := Host.Outcome.next.inj hx'
    exact .inr ⟨c, c', hl, by rw [hs', State.result, State.result]⟩
  | some j =>
    obtain ⟨l, r, hj, hlj, hr, rfl⟩ := exec_link_inversion hi hx
    by_cases hjk : j.toNat = k.toNat
    · obtain rfl := BitVec.eq_of_toNat_eq hjk
      obtain rfl := Option.some.inj (hlj.symm.trans hl)
      have hlj' : s'.links[j.toNat]? = some (Link.idleWith c') := by
        rw [hlinks, List.getElem?_set_self (lt_length_of_getElem? hl)]
      obtain ⟨r', hr', hcase⟩ := hr.of_idleWith c'
      rw [exec_of_linkCommandStep (hparams ▸ hj) hlj' (hparams ▸ hr')] at hx'
      obtain rfl := Host.Outcome.next.inj hx'
      obtain rfl | ⟨d, d', rfl, rfl⟩ := hcase
      · exact .inl (by rw [hs', State.commit, State.commit, List.set_set])
      · refine .inr ⟨d, d', State.commit_links_same _ hl, ?_⟩
        simp only [hs', State.commit, List.set_set]
        rfl
    · have hlj' : s'.links[j.toNat]? = some l := by
        rw [hlinks, List.getElem?_set_ne (Ne.symm hjk), hlj]
      rw [exec_of_linkCommandStep (hparams ▸ hj) hlj' (hparams ▸ hr)] at hx'
      obtain rfl := Host.Outcome.next.inj hx'
      refine .inr ⟨c, c', (s.commit_links_other r (Ne.symm hjk)).trans hl, ?_⟩
      rw [hs', State.commit, State.commit, List.set_comm _ _ (Ne.symm hjk)]

/-- The same commands from two such states show the same. -/
theorem SameButIdleCountdown.shown_eq {k : BitVec 8} {is : List Instr} : ∀ {s s' t t' : State} {shown shown' : List Shown},
    SameButIdleCountdown k s s' → doAll is s = some (t, shown) → doAll is s' = some (t', shown') → shown' = shown := by
  induction is with
  | nil =>
    intro s s' t t' shown shown' _ h h'
    cases h
    cases h'
    rfl
  | cons i is ih =>
    intro s s' t t' shown shown' hs h h'
    obtain ⟨s1, rest, hx, hrest, rfl⟩ := doAll_cons_eq_some.1 h
    obtain ⟨s1', rest', hx', hrest', rfl⟩ := doAll_cons_eq_some.1 h'
    have hs1 := hs.step hx hx'
    obtain ⟨hout, hnote⟩ := hs1.shown
    rw [hout, hnote, ih hs1 hrest hrest']

/-- Settles O38: the two states differ in the countdown of link k alone, and the commands keep it so. -/
theorem idleCountdownUnobservable : Obligations.IdleCountdownUnobservable :=
  fun _ _ _ _ c c' _ _ _ hl h h' => SameButIdleCountdown.shown_eq (.inr ⟨c, c', hl, rfl⟩) h h'

end Sys2Proof.Machine

/-! ## Ticks (41_parser.md R123, R134, R135; 60_exceptions.md R185): silence on a link -/

namespace Sys2Proof.Machine

/-- The state after a list of commands meets the invariant where the state before does (10_state.md R24). -/
theorem State.Inv.after_doAll {is : List Instr} : ∀ {s t : State} {shown : List Shown},
    s.Inv → doAll is s = some (t, shown) → t.Inv := by
  induction is with
  | nil =>
    intro s t shown h hrun
    cases hrun
    exact h
  | cons i is ih =>
    intro s t shown h hrun
    obtain ⟨s1, rest, hx, hrest, rfl⟩ := doAll_cons_eq_some.1 hrun
    exact ih (h.after_exec hx) hrest

/-- A link that is there has an index below NUM_LINKS. -/
theorem State.Inv.lt_numLinks {s : State} {k : BitVec 8} {l : Link} (h : s.Inv) (hl : s.links[k.toNat]? = some l) :
    k.toNat < s.params.numLinks :=
  h.2.1 ▸ lt_length_of_getElem? hl

/-- A row of ticks, by the first of them. -/
theorem doAll_ticks_succ {s : State} {k : BitVec 8} {l : Link} {r : LinkStep} (n : Nat)
    (hk : k.toNat < s.params.numLinks) (hl : s.links[k.toNat]? = some l) (hr : l.tick = r) :
    doAll (List.replicate (n + 1) (.tick k)) s =
      (doAll (List.replicate n (.tick k)) (s.commit k r)).map fun q => (q.1, (r.out, r.note) :: q.2) := by
  rw [List.replicate_succ, doAll_cons _ (exec_tick_of_eq hk hl hr)]
  rfl

/-- The second state is the first but for link k and what was shown last: what is committed to link k makes them equal. -/
def SameButLink (k : BitVec 8) (s t : State) : Prop := ∀ r, t.commit k r = s.commit k r

/-- Such a state has the same parameters. -/
theorem SameButLink.params {k : BitVec 8} {s t : State} (h : SameButLink k s t) : t.params = s.params := by
  have hparams := congrArg State.params (h Link.reset.quiet)
  rwa [State.commit_params, State.commit_params] at hparams

/-- Such a state has the same links but for link k. -/
theorem SameButLink.links {k : BitVec 8} {s t : State} {l : Link} (h : SameButLink k s t)
    (hl : t.links[k.toNat]? = some l) : t.links = s.links.set k.toNat l := by
  obtain ⟨hlt, rfl⟩ := List.getElem?_eq_some_iff.1 hl
  have hset := congrArg State.links (h (t.links[k.toNat]).quiet)
  rwa [State.commit_links, Link.quiet_link, List.set_getElem_self] at hset

/-- A tick on an empty link, or above 1, only takes the countdown down (R123). -/
theorem Link.tick_quiet {p : Params} {l : Link} (h : l.Inv p) (hc : l.phase = .idle ∨ 1 < l.cd) :
    l.tick = { l with cd := l.cd - 1 }.quiet := by
  obtain hp | hc := hc
  · rw [Link.eq_idleWith h hp]
    exact Link.tick_idleWith l.cd
  · exact Link.tick_of_two_le hc

/-- Ticks on an empty link, or fewer than the countdown, only take it down (R123, R134). -/
theorem doAll_ticks_quiet (k : BitVec 8) : ∀ (n : Nat) {s : State} {l : Link}, s.Inv → s.links[k.toNat]? = some l →
    (l.phase = .idle ∨ n < l.cd) →
      ∃ t, doAll (List.replicate n (.tick k)) s = some (t, List.replicate n silent) ∧ SameButLink k s t ∧
        t.links[k.toNat]? = some { l with cd := l.cd - n } := by
  intro n
  induction n with
  | zero => exact fun _ hl _ => ⟨_, rfl, fun _ => rfl, hl⟩
  | succ n ih =>
    intro s l h hl hn
    have htick := Link.tick_quiet (h.link hl) (hn.imp_right (by omega))
    obtain ⟨t, ht, hsame, hlink⟩ := ih (h.commit (htick ▸ Link.inv_tick (h.link hl)))
      (State.commit_links_same { l with cd := l.cd - 1 }.quiet hl) (hn.imp_right Nat.lt_sub_of_add_lt)
    refine ⟨t, ?_, fun r => (hsame r).trans (s.commit_commit k _ r), ?_⟩
    · rw [doAll_ticks_succ n (h.lt_numLinks hl) hl htick, ht]
      rfl
    · rw [hlink, Link.quiet_link, Nat.sub_sub, Nat.add_comm]

/-- As many ticks as the countdown or more empty the link (R134). -/
theorem doAll_ticks_of_le (k : BitVec 8) : ∀ (n : Nat) {s : State} {l : Link}, s.Inv → s.links[k.toNat]? = some l →
    l.cd ≤ n → ∃ t shown, doAll (List.replicate n (.tick k)) s = some (t, shown) ∧
      t.links[k.toNat]? = some (Link.idleWith 0) := by
  intro n
  induction n with
  | zero =>
    intro s l h hl hn
    have hlinv := h.link hl
    have hp : l.phase = .idle := by
      by_contra hp
      exact absurd (hlinv.2.2 hp) (by omega)
    refine ⟨s, [], rfl, ?_⟩
    rw [hl, Link.eq_idleWith hlinv hp, Nat.le_zero.1 hn]
  | succ n ih =>
    intro s l h hl hn
    have htick := exec_tick_of_link h hl
    have hcd : l.tick.link.cd ≤ n := by
      have hstep := l.tickStep
      generalize l.tick = r at hstep
      cases hstep with
      | still hc => exact hc ▸ Nat.zero_le n
      | down hc => exact Nat.sub_le_of_le_add hn
      | expired hc hp => exact Nat.zero_le n
      | expiredIdle hc hp => exact Nat.zero_le n
    obtain ⟨t, shown, ht, hlink⟩ := ih (h.after_exec htick) (State.commit_links_same _ hl) hcd
    rw [doAll_ticks_succ n (h.lt_numLinks hl) hl rfl, ht]
    exact ⟨t, _, rfl, hlink⟩

/-- Settles O46: TIMEOUT bounds every countdown. -/
theorem silenceReturnsToIdle : Obligations.SilenceReturnsToIdle := by
  intro s k h hk
  obtain ⟨l, hl⟩ := State.exists_link? h.2.1 hk
  obtain ⟨-, hl⟩ := State.link?_eq_some.1 hl
  exact doAll_ticks_of_le k _ h hl (h.link hl).2.1

/-- Settles O47: the byte restored the countdown to TIMEOUT, TIMEOUT - 1 ticks take it to 1, and one more drops the frame. -/
theorem timeoutAbandonsPartialFrame : Obligations.TimeoutAbandonsPartialFrame := by
  intro s s1 k b l h hx hl hp
  have h1 := h.after_exec hx
  obtain ⟨l', hl', hcd⟩ := everyByteRestoresCountdown s s1 k b hx
  obtain rfl := Option.some.inj (hl.symm.trans hl')
  have hpos : 1 ≤ s.params.timeout := timeout_pos_of_ok h.1
  obtain ⟨t, ht, hsame, htl⟩ := doAll_ticks_quiet k (s.params.timeout - 1) h1 hl (.inr (by omega))
  rw [show l.cd - (s.params.timeout - 1) = 1 by omega] at htl
  have hlast := exec_tick_of_eq (hsame.params ▸ h1.lt_numLinks hl) htl (Link.tick_of_one rfl hp)
  refine ⟨⟨t, ht, hsame.links htl⟩, t.commit k { link := Link.idleWith 0, out := none, note := some .timeout }, ?_, ?_⟩
  · have hsplit : List.replicate s.params.timeout (Instr.tick k) =
        List.replicate (s.params.timeout - 1) (.tick k) ++ [.tick k] := by
      rw [← List.replicate_succ', Nat.sub_add_cancel hpos]
    rw [hsplit, doAll_append, ht, Option.bind_some, doAll_cons [] hlast]
    rfl
  · rw [hsame, State.commit_links]

/-- A byte on the link a step was committed to is committed in the step's place (R124). -/
theorem exec_rxb_of_commit {s : State} {k : BitVec 8} {b : Byte} {l : Link} {r r' : LinkStep}
    (hk : k.toNat < s.params.numLinks) (hl : s.links[k.toNat]? = some l)
    (hu : r.link.phase = .payload → overhead < r.link.tlen.toNat) (hr : ArmStep s.params k r.link b r') :
    exec (.rxb k b) (s.commit k r) = .next (s.commit k (r'.restore s.params)) := by
  rw [exec_rxb_of_arm (s := s.commit k r) hk (State.commit_links_same r hl) hu hr.rxbArm_eq, State.commit_commit,
    State.commit_params]

/-- Settles O49: the tick empties the link, and the byte is the first after it. -/
theorem expiringCycleParsesFromIdle : Obligations.ExpiringCycleParsesFromIdle := by
  intro s k b l hk hl hp hcd
  rw [doAll_cons _ (exec_tick_of_eq hk hl (Link.tick_of_one hcd hp))]
  split_ifs with hb
  · rw [doAll_cons [] (exec_rxb_of_commit hk hl (by nofun) (.begun rfl hb))]
    rfl
  · rw [doAll_cons [] (exec_rxb_of_commit hk hl (by nofun) (.noise rfl hb))]
    rfl

end Sys2Proof.Machine

/-! ## Byte streams (30_encoding.md R60 to R63, 41_parser.md R132): frames fed to one link -/

namespace Sys2Proof.Machine

/-! ### Beginnings of frames -/

section
variable {p : Params}

/-- The length field of a byte string is that of its beginning, once that holds it. -/
theorem frameLength_append {w : List Byte} (v : List Byte) (h : 3 < w.length) : frameLength (w ++ v) = frameLength w := by
  rw [frameLength, frameLength, List.getD_append _ _ _ _ (by omega), List.getD_append _ _ _ _ h]

/-- What begins with a good head and is shorter than its declared length is unfinished (R62). -/
theorem unfinished_of_headOk {w v : List Byte} (hw : w ≠ []) (h : headOk p (w ++ v))
    (hlt : w.length < frameLength (w ++ v)) : Unfinished p w := by
  obtain ⟨h0, h1, hmin, hmax⟩ := h
  have hpos := List.length_pos_iff.2 hw
  refine ⟨hpos, ?_, fun h => ?_, fun h => ?_⟩
  · rwa [List.getD_append _ _ _ _ hpos] at h0
  · rwa [List.getD_append _ _ _ _ h] at h1
  · rw [frameLength_append v h] at hmin hmax hlt
    exact ⟨hmin, hmax, hlt⟩

/-- What begins an unfinished frame is one. -/
theorem Unfinished.of_append {w v : List Byte} (h : Unfinished p (w ++ v)) (hw : w ≠ []) : Unfinished p w := by
  obtain ⟨-, h0, h1, hlen⟩ := h
  have hpos := List.length_pos_iff.2 hw
  rw [List.length_append] at h1 hlen
  refine ⟨hpos, ?_, fun h => ?_, fun h => ?_⟩
  · rwa [List.getD_append _ _ _ _ hpos] at h0
  · have := h1 (by omega)
    rwa [List.getD_append _ _ _ _ h] at this
  · have := hlen (by omega)
    rw [frameLength_append v h] at this
    omega

/-- A frame of its declared length has a byte. -/
theorem ne_nil_of_complete {w : List Byte} (h : headOk p w) (hlen : w.length = frameLength w) : w ≠ [] := by
  obtain ⟨-, -, hmin, -⟩ := h
  exact List.length_pos_iff.1 (by omega)

/-- A frame of its declared length is unfinished before its last byte. -/
theorem unfinished_of_complete {w : List Byte} {b : Byte} (h : headOk p (w ++ [b]))
    (hlen : (w ++ [b]).length = frameLength (w ++ [b])) : Unfinished p w := by
  have hmin : overhead < frameLength (w ++ [b]) := h.2.2.1
  rw [List.length_append, List.length_singleton] at hlen
  unfold overhead at hmin
  exact unfinished_of_headOk (List.length_pos_iff.1 (by omega)) h (by omega)

/-- The queue-id and the payload of an accepted frame are its bytes (R61). -/
theorem Accepted.unique {w : List Byte} {q q' : Byte} {pay pay' : List Byte} (h : Accepted p w q pay)
    (h' : Accepted p w q' pay') : q = q' ∧ pay = pay' := by
  obtain ⟨-, -, hq, hpay, -⟩ := h
  obtain ⟨-, -, hq', hpay', -⟩ := h'
  exact ⟨hq.trans hq'.symm, hpay.trans hpay'.symm⟩

/-- MAX_TOTAL is above OVERHEAD (00_scope.md R6, R7). -/
theorem Params.overhead_lt_maxTotal (h : p.ok = true) : overhead < p.maxTotal := by
  have := (Params.ok_iff.1 h).1
  simp only [overhead, Params.maxTotal, preLen]
  omega

/-- A byte string is spoilt in one way only: the ways differ in how many bytes came, and the two length drops in the
length. -/
theorem SpoiltBy.unique (hp : p.ok = true) {w : List Byte} {d d' : Drop} (h : SpoiltBy p w d) (h' : SpoiltBy p w d') :
    d = d' := by
  have hmax := Params.overhead_lt_maxTotal hp
  by_contra hne
  cases d <;> cases d' <;> simp only [SpoiltBy, not_true_eq_false] at h h' hne <;> omega

/-! ### What the byte that comes next does -/

variable {k : BitVec 8} {w : List Byte} {r : LinkStep}

/-- A byte that leaves the frame unfinished is kept. -/
theorem RxbOutcome.kept_of_unfinished (h : RxbOutcome p k w r) (hw : Unfinished p w) :
    r.out = none ∧ r.note = none ∧ r.link.held = w := by
  cases h with
  | kept out note held _ => exact ⟨out, note, held⟩
  | delivered q pay h _ => exact absurd hw h.not_unfinished
  | dropped d h _ => exact absurd h hw.not_spoilt

/-- A link that keeps bytes holds an unfinished frame. -/
theorem Link.unfinished_held {l : Link} (h : l.Inv p) (hw : l.held = w) (hp : l.phase ≠ .idle) : Unfinished p w :=
  hw ▸ Link.unfinished_of_inv h hp

/-- A byte that completes an accepted frame delivers it. -/
theorem RxbOutcome.eq_of_accepted {q : Byte} {pay : List Byte} (h : RxbOutcome p k w r) (hr : r.link.Inv p)
    (hw : Accepted p w q pay) :
    r = { link := Link.idleWith p.timeout, out := some (.deliver k q pay), note := none } := by
  cases h with
  | kept _ _ held phase => exact absurd (Link.unfinished_held hr held phase) hw.not_unfinished
  | delivered q' pay' h eq =>
    obtain ⟨rfl, rfl⟩ := hw.unique h
    exact eq
  | dropped d h _ => exact absurd h hw.not_spoilt

/-- A byte that spoils a frame drops it. -/
theorem RxbOutcome.eq_of_spoilt {d : Drop} (hp : p.ok = true) (h : RxbOutcome p k w r) (hr : r.link.Inv p)
    (hw : SpoiltBy p w d) : r = { link := Link.idleWith p.timeout, out := none, note := some d } := by
  cases h with
  | kept _ _ held phase => exact absurd hw (Link.unfinished_held hr held phase).not_spoilt
  | delivered q' pay' h _ => exact absurd hw h.not_spoilt
  | dropped d' h eq => rwa [hw.unique hp h]
end

/-- A link of R24's table in IDLE holds no byte. -/
theorem Link.held_of_idle {p : Params} {l : Link} (h : l.Inv p) (hp : l.phase = .idle) : l.held = [] := by
  rw [Link.eq_idleWith h hp]
  rfl

/-! ### Bytes with short gaps between them -/

/-- The ticks before the bytes to come do not let the link's countdown expire outside IDLE: none of those before the first
byte count in IDLE, and otherwise the last byte restored the countdown (R203, R207). -/
def Timely (p : Params) (l : Link) (f : List (Nat × Byte)) : Prop :=
  (l.phase = .idle ∧ gapsShort p f) ∨ (l.cd = p.timeout ∧ ∀ x ∈ f, x.1 < p.timeout)

section
variable {p : Params} {l : Link} {x : Nat × Byte} {f : List (Nat × Byte)}

/-- The ticks before the next byte do not expire the countdown. -/
theorem Timely.head (h : Timely p l (x :: f)) : l.phase = .idle ∨ x.1 < l.cd := by
  obtain ⟨hp, -⟩ | ⟨hc, hx⟩ := h
  · exact .inl hp
  · exact .inr (hc ▸ hx x List.mem_cons_self)

/-- After the next byte has restored the countdown the bytes after it come in time. -/
theorem Timely.tail {l' : Link} (h : Timely p l (x :: f)) (hc : l'.cd = p.timeout) : Timely p l' f := by
  obtain ⟨-, hf⟩ | ⟨-, hf⟩ := h
  · exact .inr ⟨hc, hf⟩
  · exact .inr ⟨hc, fun y hy => hf y (List.mem_cons_of_mem x hy)⟩
end

/-- A byte after ticks that do not expire the countdown does to the link what it does without them. -/
theorem doAll_ticks_rxb {s : State} {k : BitVec 8} {l : Link} {n : Nat} (b : Byte) (h : s.Inv)
    (hl : s.links[k.toNat]? = some l) (hn : l.phase = .idle ∨ n < l.cd) :
    ∃ r, r = (l.rxbArm s.params k b).restore s.params ∧
      doAll (List.replicate n (.tick k) ++ [.rxb k b]) s =
        some (s.commit k r, List.replicate n silent ++ [(r.out, r.note)]) := by
  obtain ⟨t, ht, hsame, hlink⟩ := doAll_ticks_quiet k n h hl hn
  have hx := exec_rxb_of_inv b (h.after_doAll ht) hlink
  rw [hsame.params, Link.restore_rxbArm_countdown, hsame] at hx
  refine ⟨_, rfl, ?_⟩
  rw [doAll_append, ht, Option.bind_some, doAll_cons [] hx]
  rfl

/-- One byte with the ticks before it, and then the others. -/
theorem feedWithTicks_cons (k : BitVec 8) (x : Nat × Byte) (f : List (Nat × Byte)) :
    feedWithTicks k (x :: f) = (List.replicate x.1 (.tick k) ++ [.rxb k x.2]) ++ feedWithTicks k f :=
  List.flatMap_cons

/-- Bytes with the ticks before them, and then others. -/
theorem feedWithTicks_append (k : BitVec 8) (f g : List (Nat × Byte)) :
    feedWithTicks k (f ++ g) = feedWithTicks k f ++ feedWithTicks k g :=
  List.flatMap_append

/-- Bytes that come in time and leave the frame unfinished are held, and nothing is shown: by induction on the bytes, each of
which is kept because what it ends is the beginning of an unfinished frame. -/
theorem doAll_feed_unfinished {k : BitVec 8} (g : List (Nat × Byte)) : ∀ (f : List (Nat × Byte)) {s : State} {l : Link},
    s.Inv → s.links[k.toNat]? = some l → Timely s.params l (f ++ g) →
    (f ≠ [] → Unfinished s.params (l.held ++ f.map Prod.snd)) →
      ∃ t l', doAll (feedWithTicks k f) s = some (t, List.replicate (feedWithTicks k f).length silent) ∧
        SameButLink k s t ∧ t.links[k.toNat]? = some l' ∧ l'.held = l.held ++ f.map Prod.snd ∧
        Timely s.params l' g := by
  intro f
  induction f with
  | nil => exact fun _ hl ht _ => ⟨_, _, rfl, fun _ => rfl, hl, (List.append_nil _).symm, ht⟩
  | cons x f ih =>
    intro s l h hl htimely hw
    have hw := hw (List.cons_ne_nil x f)
    rw [List.map_cons, List.append_cons] at hw
    obtain ⟨r, hr, hrun⟩ := doAll_ticks_rxb x.2 h hl htimely.head
    have hout := Link.rxb_outcome (k := k) (b := x.2) (h.link hl)
    rw [← hr] at hout
    obtain ⟨hnone, hnote, hheld⟩ := hout.kept_of_unfinished (hw.of_append (by simp))
    have h1 := h.after_doAll hrun
    obtain ⟨t, l', ht, hsame, hl', hheld', htimely'⟩ := ih h1 (State.commit_links_same r hl)
      (htimely.tail (by rw [hr]; rfl)) (fun _ => by rw [hheld]; exact hw)
    refine ⟨t, l', ?_, fun q => (hsame q).trans (s.commit_commit k r q), hl', ?_, htimely'⟩
    · rw [feedWithTicks_cons, doAll_append, hrun, Option.bind_some, ht, hnone, hnote]
      simp only [Option.map_some, List.length_append, List.length_replicate, List.length_singleton,
        ← List.replicate_succ', List.replicate_append_replicate]
    · rw [hheld', hheld, List.map_cons, List.append_assoc, List.singleton_append]

/-- The last of such bytes has one of the three outcomes for all of them. -/
theorem doAll_feed_last {k : BitVec 8} {s : State} {l : Link} {g : List (Nat × Byte)} {x : Nat × Byte} (h : s.Inv)
    (hl : s.links[k.toNat]? = some l) (hp : l.phase = .idle) (hgap : gapsShort s.params (g ++ [x]))
    (hw : g ≠ [] → Unfinished s.params (g.map Prod.snd)) :
    ∃ r, RxbOutcome s.params k ((g ++ [x]).map Prod.snd) r ∧ r.link.Inv s.params ∧
      doAll (feedWithTicks k (g ++ [x])) s = some (s.commit k r,
        List.replicate ((feedWithTicks k (g ++ [x])).length - 1) silent ++ [(r.out, r.note)]) := by
  have hnil := Link.held_of_idle (h.link hl) hp
  obtain ⟨t, l', ht, hsame, hl', hheld, htimely⟩ := doAll_feed_unfinished [x] g h hl (.inl ⟨hp, hgap⟩)
    (by rwa [hnil])
  have hinv := h.after_doAll ht
  obtain ⟨r, hr, hrun⟩ := doAll_ticks_rxb x.2 hinv hl' htimely.head
  have hout := Link.rxb_outcome (k := k) (b := x.2) (hinv.link hl')
  have hrinv := (hinv.after_doAll hrun).link (State.commit_links_same r hl')
  rw [← hr, hheld, hnil, hsame.params] at hout
  rw [State.commit_params, hsame.params] at hrinv
  refine ⟨r, by simpa using hout, hrinv, ?_⟩
  have hx : feedWithTicks k [x] = List.replicate x.1 (.tick k) ++ [.rxb k x.2] := by simp [feedWithTicks]
  rw [feedWithTicks_append, hx, doAll_append, ht, Option.bind_some, hrun, hsame]
  simp [← List.append_assoc]

end Sys2Proof.Machine

/-! ## Frames (30_encoding.md R62, R63, 42_builder.md R162, R163): accepted, truncated, spoilt and built -/

namespace Sys2Proof.Machine

/-! ### Accepted frames -/

/-- Settles O39: before its last byte an accepted frame is unfinished, and the last byte has the one outcome an accepted
frame can have. -/
theorem acceptedFrameDelivered : Obligations.AcceptedFrameDelivered := by
  intro s k l f q pay h hk hl hp hacc hgap
  have hhead := hacc.1
  have hlen := hacc.2.1
  have hne : f ≠ [] := fun hf => ne_nil_of_complete hhead hlen (by rw [hf]; rfl)
  obtain ⟨g, x, rfl⟩ := (List.eq_nil_or_concat' f).resolve_left hne
  rw [List.map_append, List.map_singleton] at hhead hlen
  obtain ⟨r, hout, hr, hrun⟩ := doAll_feed_last h hl hp hgap fun _ => unfinished_of_complete hhead hlen
  rw [hout.eq_of_accepted hr hacc] at hrun
  exact hrun

/-! ### Bytes without ticks between them -/

/-- Feeding bytes is as many commands as bytes. -/
theorem length_feed (k : BitVec 8) (f : List Byte) : (feed k f).length = f.length := List.length_map _

/-- Bytes with no ticks between them have short gaps. -/
theorem gapsShort_map {p : Params} (hp : p.ok = true) (f : List Byte) : gapsShort p (f.map fun b => (0, b)) := by
  intro x hx
  obtain ⟨b, -, rfl⟩ := List.mem_map.1 (List.mem_of_mem_tail hx)
  exact timeout_pos_of_ok hp

/-- The bytes of bytes with no ticks between them. -/
theorem map_snd_map (f : List Byte) : (f.map fun b => ((0 : Nat), b)).map Prod.snd = f := by
  simp [Function.comp_def]

/-- Bytes fed to an IDLE link, of which the last spoils an unfinished frame, show nothing before it and then the drop. -/
theorem doAll_feed_spoilt {s : State} {k : BitVec 8} {l : Link} {w : List Byte} {b : Byte} {d : Drop} (h : s.Inv)
    (hl : s.links[k.toNat]? = some l) (hp : l.phase = .idle) (hw : w ≠ [] → Unfinished s.params w)
    (hd : SpoiltBy s.params (w ++ [b]) d) :
    doAll (feed k (w ++ [b])) s = some
      ({ s with links := s.links.set k.toNat (Link.idleWith s.params.timeout), out := none, note := some d },
        List.replicate w.length silent ++ [(none, some d)]) := by
  have hgap := gapsShort_map h.1 (w ++ [b])
  have hlen := length_feed k (w ++ [b])
  rw [feed_eq_feedWithTicks, List.map_append, List.map_singleton] at *
  obtain ⟨r, hout, hr, hrun⟩ := doAll_feed_last h hl hp hgap fun hne => by
    rw [map_snd_map]
    exact hw (by simpa using hne)
  rw [List.map_append, map_snd_map] at hout
  rw [hrun, hlen, hout.eq_of_spoilt h.1 hr hd]
  simp [State.commit]

/-- The first byte of a preamble is unfinished. -/
theorem unfinished_p0 (p : Params) : Unfinished p [p.p0] := by simp [Unfinished]

/-- Settles O41: P0 is unfinished, and a second byte other than P1 spoils it. -/
theorem badPreambleDropped : Obligations.BadPreambleDropped := by
  intro s k l b h _ hl hp hb
  exact doAll_feed_spoilt h hl hp (fun _ => unfinished_p0 s.params) (d := .sync) ⟨rfl, hb⟩

/-- Settles O42: the two bytes of the failed synchronisation leave the link as the drop does, and the rest follows it. -/
theorem noRescanAfterSyncDrop : Obligations.NoRescanAfterSyncDrop := by
  intro s k l b rest h hk hl hp hb
  have hsplit : feed k (s.params.p0 :: b :: rest) = feed k [s.params.p0, b] ++ feed k rest := rfl
  rw [hsplit, doAll_append, badPreambleDropped s k l b h hk hl hp hb]
  rfl

/-- Settles O43: the preamble and one length byte are unfinished, and the second length byte spoils them. -/
theorem badLengthDropped : Obligations.BadLengthDropped := by
  intro s k l a b d h _ hl hp hd
  have hw : Unfinished s.params [s.params.p0, s.params.p1, a] := by simp [Unfinished]
  refine doAll_feed_spoilt h hl hp (fun _ => hw) ?_
  obtain ⟨hlen, rfl⟩ | ⟨hlen, rfl⟩ := hd
  · exact ⟨rfl, (toNat_fromLe16 a b).trans_le hlen⟩
  · exact ⟨rfl, hlen.trans_eq (toNat_fromLe16 a b).symm⟩

/-- Settles O44: before its last byte the frame is unfinished, and the wrong CRC spoils it. -/
theorem badCrcDropped : Obligations.BadCrcDropped := by
  intro s k l f h _ hl hp hhead hlen hcrc
  obtain ⟨w, b, rfl⟩ := (List.eq_nil_or_concat' f).resolve_left (ne_nil_of_complete hhead hlen)
  have hmin : 7 < frameLength (w ++ [b]) := hhead.2.2.1
  rw [doAll_feed_spoilt h hl hp (fun _ => unfinished_of_complete hhead hlen) (d := .crc) ⟨hlen, by omega, hcrc⟩]
  simp

/-- How many bytes a link holds. -/
theorem Link.length_held (l : Link) :
    l.held.length = l.pre.length + l.hdr.length + l.pay.length + l.cks.length := by
  simp [Link.held, Nat.add_assoc]

/-- A link in PAYLOAD or CHECKSUM holds the length it has read. -/
theorem Link.frameLength_held {p : Params} {l : Link} (h : l.bodyInv p) : frameLength l.held = l.tlen.toNat := by
  obtain ⟨hpre, hhdr, htlen, -⟩ := h
  obtain ⟨x, y, z, hx⟩ := eq_three hhdr
  simp [frameLength, Link.held, hpre, hx, htlen, lengthField]

/-- The phase of a link of R24's table outside IDLE is that of the number of bytes it holds (R24, R62). -/
theorem Link.phase_eq_of_inv {p : Params} {l : Link} (h : l.Inv p) (hi : l.phase ≠ .idle) :
    l.phase = (if l.held.length = 1 then .syncing else if l.held.length ≤ 4 then .header
      else if l.held.length + 2 < frameLength l.held then .payload else .checksum) := by
  have hlen := l.length_held
  rcases Phase.cases_eq l.phase with hp | hp | hp | hp | hp
  · exact absurd hp hi
  · obtain ⟨hpre, hhdr, hpay, hcks, -⟩ := (Link.rowInv_syncing hp).1 h.1
    rw [hpre, hhdr, hpay, hcks] at hlen
    rw [hp]
    exact (if_pos hlen).symm
  · obtain ⟨hpre, hpay, hcks, -, hhdr⟩ := (Link.rowInv_header hp).1 h.1
    rw [hpre, hpay, hcks, List.length_cons, List.length_singleton, List.length_nil] at hlen
    rw [hp, if_neg (by omega), if_pos (by omega)]
  · obtain ⟨hbody, hcks, hpay⟩ := (Link.rowInv_payload hp).1 h.1
    have hfl := Link.frameLength_held hbody
    obtain ⟨hpre, hhdr, -⟩ := hbody
    rw [hpre, hhdr, hcks, List.length_cons, List.length_singleton, List.length_nil] at hlen
    unfold overhead at hpay
    rw [hp, if_neg (by omega), if_neg (by omega), if_pos (by omega)]
  · obtain ⟨hbody, hcks, hpay⟩ := (Link.rowInv_checksum hp).1 h.1
    have hfl := Link.frameLength_held hbody
    obtain ⟨hpre, hhdr, -, ⟨hmin, -⟩, -⟩ := hbody
    rw [hpre, hhdr, List.length_cons, List.length_singleton] at hlen
    unfold overhead at hpay hmin
    rw [hp, if_neg (by omega), if_neg (by omega), if_neg (by omega)]

/-- Settles O40: what is fed is unfinished, so every byte is kept, and the number of bytes held gives the phase. -/
theorem truncatedFrameStaysSilent : Obligations.TruncatedFrameStaysSilent := by
  intro s k l f h _ hl hp hpos h0 h1 hlen
  have hnil := Link.held_of_idle (h.link hl) hp
  obtain ⟨t, l', ht, hsame, hl', hheld, -⟩ := doAll_feed_unfinished [] (f.map fun b => (0, b)) h hl
    (.inl ⟨hp, by rw [List.append_nil]; exact gapsShort_map h.1 f⟩)
    (fun _ => by rw [hnil, map_snd_map]; exact ⟨hpos, h0, h1, hlen⟩)
  rw [← feed_eq_feedWithTicks, length_feed] at ht
  rw [hnil, map_snd_map, List.nil_append] at hheld
  have hinv := (h.after_doAll ht).link hl'
  have hi : l'.phase ≠ .idle := fun hi => by
    rw [← hheld, Link.held_of_idle hinv hi] at hpos
    exact absurd hpos (Nat.lt_irrefl 0)
  refine ⟨t, l', ht, hl', hheld, ?_⟩
  rw [← hheld]
  exact Link.phase_eq_of_inv hinv hi

/-! ### Built frames -/

section
variable {p : Params} {q : Byte} {payload : List Byte}

/-- BUILD answers a frame for a payload within its bounds only (R160). -/
theorem buildEvent_eq_frame {f : List Byte} (h : buildEvent p q payload = .frame f) :
    (payload ≠ [] ∧ payload.length + overhead ≤ 0xFFFF ∧ payload.length + overhead ≤ p.maxTotal) ∧
      f = frameOf p q payload := by
  unfold buildEvent at h
  split_ifs at h with h0 h1 h2
  exact ⟨⟨fun hn => h0 (by rw [hn]; rfl), Nat.not_lt.1 h1, Nat.not_lt.1 h2⟩, (Event.frame.inj h).symm⟩

/-- A frame is seven bytes longer than its payload (30_encoding.md R60). -/
theorem length_frameOf : (frameOf p q payload).length = payload.length + overhead := by
  simp only [frameOf, frameHead, length_le16, List.length_append, List.length_cons, List.length_nil, overhead]
  omega

/-- A frame declares its length, where 16 bits hold it (R163). -/
theorem frameLength_frameOf (h : payload.length + overhead ≤ 0xFFFF) :
    frameLength (frameOf p q payload) = payload.length + overhead := by
  have ht (t : Half) (rest : List Byte) : frameLength (frameHead p q t ++ rest) = t.toNat :=
    congrArg BitVec.toNat (fromLe16_lo_hi t)
  simp only [frameOf, List.append_assoc, ht, BitVec.toNat_ofNat]
  omega

/-- A frame within the bounds is accepted with its queue-id and payload (R163, R62). -/
theorem accepted_frameOf (h0 : payload ≠ []) (h1 : payload.length + overhead ≤ 0xFFFF)
    (h2 : payload.length + overhead ≤ p.maxTotal) : Accepted p (frameOf p q payload) q payload := by
  have hpos := List.length_pos_iff.2 h0
  have hfl := frameLength_frameOf (p := p) (q := q) h1
  have hlen := length_frameOf (p := p) (q := q) (payload := payload)
  have hbody : (frameHead p q (BitVec.ofNat 16 (payload.length + overhead)) ++ payload).length =
      (frameOf p q payload).length - cksLen := by
    rw [hlen, List.length_append]
    exact Nat.add_comm 5 payload.length
  refine ⟨⟨rfl, rfl, ?_, ?_⟩, hlen.trans hfl.symm, rfl, ?_, ?_⟩
  · omega
  · omega
  · rw [hfl, Nat.add_sub_cancel]
    exact (List.take_left' rfl).symm
  · rw [← hbody]
    simp only [frameOf]
    rw [List.drop_left' rfl, List.take_left' rfl]
end

/-- Settles O53: BUILD answers a frame within the bounds only, and such a frame is accepted. -/
theorem builtFramesAreWellFormed : Obligations.BuiltFramesAreWellFormed := by
  intro s t q f hx hf
  obtain ⟨e, he, rfl⟩ := exec_engine_inversion rfl hx
  cases he with
  | build _ hs =>
    obtain ⟨⟨h0, h1, h2⟩, rfl⟩ := buildEvent_eq_frame (Option.some.inj hf)
    have hpos := List.length_pos_iff.2 h0
    have hlen := length_frameOf (p := s.params) (q := q) (payload := s.seq)
    unfold overhead at hlen
    exact ⟨accepted_frameOf h0 h1 h2, by omega, by omega⟩

/-- Settles O55: BUILD answers a frame for the payload, the frame is accepted, and the state BUILD leaves has the same links
and parameters. -/
theorem buildThenParseRoundTrip : Obligations.BuildThenParseRoundTrip := by
  intro s q k l h hpos hmax hwidth hk hl hp
  have h0 : s.seq ≠ [] := List.length_pos_iff.1 hpos
  have hpacket := (Params.ok_iff.1 h.1).1
  have h1 : s.seq.length + overhead ≤ 0xFFFF := by unfold overhead; omega
  have h2 : s.seq.length + overhead ≤ s.params.maxTotal := by
    simp only [overhead, Params.maxTotal, preLen]
    omega
  refine ⟨frameOf s.params q s.seq, s.result (.frame (frameOf s.params q s.seq)), ?_, rfl, fun g hg hgap => ?_⟩
  · rw [exec_build_of_length (by omega), buildEvent_of_ok h0 h1 h2]
  · exact acceptedFrameDelivered (s.result _) k l g q s.seq h hk hl hp (hg ▸ accepted_frameOf h0 h1 h2) hgap

end Sys2Proof.Machine

/-! ## Deliveries (41_parser.md R134, 30_encoding.md R62): where the bytes of a delivered frame come from -/

namespace Sys2Proof.Machine

/-! ### Positions in a run -/

/-- A list of commands and one more complete exactly where the list does and the one does after it. -/
theorem doAll_concat_eq_some {i : Instr} {is : List Instr} {s t : State} {shown : List Shown}
    (h : doAll (is ++ [i]) s = some (t, shown)) :
    ∃ t1 shown1, doAll is s = some (t1, shown1) ∧ exec i t1 = .next t := by
  rw [doAll_append, Option.bind_eq_some_iff] at h
  obtain ⟨⟨t1, shown1⟩, h1, hlast⟩ := h
  obtain ⟨⟨t', shown'⟩, h', heq⟩ := Option.map_eq_some_iff.1 hlast
  obtain ⟨s', rest, hx, hrest, -⟩ := doAll_cons_eq_some.1 h'
  cases hrest
  cases heq
  exact ⟨t1, shown1, h1, hx⟩

/-- What a run shows at a position is what the command there shows in the state that the commands before it leave. -/
theorem exec_of_shown {is : List Instr} : ∀ {n : Nat} {s t : State} {shown : List Shown} {x : Shown},
    doAll is s = some (t, shown) → shown[n]? = some x →
      ∃ i t1 shown1 t2, is.take (n + 1) = is.take n ++ [i] ∧ doAll (is.take n) s = some (t1, shown1) ∧
        exec i t1 = .next t2 ∧ (t2.out, t2.note) = x := by
  induction is with
  | nil =>
    intro n s t shown x h hx
    cases h
    cases hx
  | cons i is ih =>
    intro n s t shown x h hx
    obtain ⟨s1, rest, hxi, hrest, rfl⟩ := doAll_cons_eq_some.1 h
    cases n with
    | zero => exact ⟨i, s, [], s1, rfl, rfl, hxi, Option.some.inj hx⟩
    | succ n =>
      obtain ⟨j, t1, shown1, t2, htake, h1, h2, heq⟩ := ih hrest hx
      have h1' := doAll_cons_eq_some.2 ⟨s1, shown1, hxi, h1, rfl⟩
      exact ⟨j, t1, _, t2, congrArg (i :: ·) htake, h1', h2, heq⟩

/-- No run changes the parameters (10_state.md R27). -/
theorem doAll_params {is : List Instr} : ∀ {s t : State} {shown : List Shown},
    doAll is s = some (t, shown) → t.params = s.params := by
  induction is with
  | nil =>
    intro s t shown h
    cases h
    rfl
  | cons i is ih =>
    intro s t shown h
    obtain ⟨s1, rest, hx, hrest, -⟩ := doAll_cons_eq_some.1 h
    exact (ih hrest).trans (exec_keeps_ports hx).1

/-! ### The frame a link is in the middle of -/

/-- The commands of a run from `s` feed link k the bytes `w` of one frame last: the link was IDLE when the first of them came,
and no reset of it came after that. -/
def FrameFed (k : BitVec 8) (s : State) (is : List Instr) (w : List Byte) : Prop :=
  ∃ (before after : List Instr) (s1 : State) (shown1 : List Shown) (b : Byte) (l1 : Link),
    is = before ++ .rxb k b :: after ∧ .lreset k ∉ after ∧ doAll before s = some (s1, shown1) ∧
      s1.links[k.toNat]? = some l1 ∧ l1.phase = .idle ∧ bytesTo k (.rxb k b :: after) = w

section
variable {k : BitVec 8} {s t : State} {is : List Instr} {w : List Byte} {shown : List Shown} {l : Link}

/-- A byte on an IDLE link is the first of a frame. -/
theorem frameFed_of_idle (b : Byte) (h : doAll is s = some (t, shown)) (hl : t.links[k.toNat]? = some l)
    (hp : l.phase = .idle) : FrameFed k s (is ++ [.rxb k b]) [b] :=
  ⟨is, [], t, shown, b, l, rfl, List.not_mem_nil, h, hl, hp, bytesTo_rxb k [] b⟩

/-- Any command but the link's reset leaves the frame as it is or feeds it another byte. -/
theorem FrameFed.concat {i : Instr} (h : FrameFed k s is w) (hi : i ≠ .lreset k) :
    FrameFed k s (is ++ [i]) (w ++ bytesTo k [i]) := by
  obtain ⟨before, after, s1, shown1, b, l1, rfl, hreset, hdo, hl1, hp1, rfl⟩ := h
  refine ⟨before, after ++ [i], s1, shown1, b, l1, by simp, ?_, hdo, hl1, hp1, ?_⟩
  · simpa [hreset] using hi.symm
  · rw [← List.cons_append, bytesTo, List.filterMap_append]
    rfl

/-- What a run has left link k: IDLE, or in the middle of a frame whose bytes it holds. -/
def FrameTracked (k : BitVec 8) (s : State) (is : List Instr) (l : Link) : Prop :=
  l.phase = .idle ∨ FrameFed k s is l.held

/-- The byte that comes next is the next of that frame, or the first of a new one. -/
theorem FrameTracked.rxb (b : Byte) (h : FrameTracked k s is l) (hinv : l.Inv t.params)
    (hdo : doAll is s = some (t, shown)) (hl : t.links[k.toNat]? = some l) :
    FrameFed k s (is ++ [.rxb k b]) (l.held ++ [b]) := by
  obtain hp | h := h
  · rw [Link.held_of_idle hinv hp]
    exact frameFed_of_idle b hdo hl hp
  · exact bytesTo_rxb k [] b ▸ h.concat (i := .rxb k b) (by simp)

/-- Every command keeps track: the link's reset empties it, a tick empties it or leaves the bytes it holds, a byte is kept or
empties it, and any other command leaves it alone. -/
theorem FrameTracked.step {t' : State} {i : Instr} (h : FrameTracked k s is l) (hinv : t.Inv)
    (hdo : doAll is s = some (t, shown)) (hl : t.links[k.toNat]? = some l) (hx : exec i t = .next t') :
    ∃ l', t'.links[k.toNat]? = some l' ∧ FrameTracked k s (is ++ [i]) l' := by
  by_cases hi : i.link? = some k
  · obtain ⟨l', r, -, hl', hr, rfl⟩ := exec_link_inversion hi hx
    obtain rfl := Option.some.inj (hl.symm.trans hl')
    refine ⟨_, State.commit_links_same r hl, ?_⟩
    cases hr with
    | lreset => exact .inl rfl
    | tick =>
      have hsame : FrameTracked k s (is ++ [.tick k]) l :=
        h.imp_right fun h => List.append_nil l.held ▸ h.concat (i := .tick k) (by simp)
      have hstep := l.tickStep
      generalize l.tick = r at hstep
      cases hstep with
      | still hc => exact hsame
      | down hc => exact hsame
      | expired hc hp => exact .inl rfl
      | expiredIdle hc hp => exact .inl rfl
    | rxb b hu =>
      cases Link.rxb_outcome (k := k) (b := b) (hinv.link hl) with
      | kept out note held phase => exact .inr (held ▸ h.rxb b (hinv.link hl) hdo hl)
      | delivered q pay _ eq => exact .inl (by rw [eq]; rfl)
      | dropped d _ eq => exact .inl (by rw [eq]; rfl)
  · refine ⟨l, (exec_other_link hx hi).trans hl, h.imp_right fun h => ?_⟩
    have hreset : i ≠ .lreset k := fun hr => hi (by rw [hr]; rfl)
    have hbytes : bytesTo k [i] = [] := bytesTo_of_link_ne [] hi
    have hfed := h.concat hreset
    rwa [hbytes, List.append_nil] at hfed
end

/-- Every run from an IDLE link keeps track: by induction on the commands, the last one last. -/
theorem frameTracked_of_doAll {k : BitVec 8} {s : State} {l : Link} (h : s.Inv) (hl : s.links[k.toNat]? = some l)
    (hp : l.phase = .idle) (is : List Instr) : ∀ {t : State} {shown : List Shown}, doAll is s = some (t, shown) →
      ∃ l', t.links[k.toNat]? = some l' ∧ FrameTracked k s is l' := by
  induction is using List.reverseRecOn with
  | nil =>
    intro t shown hdo
    cases hdo
    exact ⟨l, hl, .inl hp⟩
  | append_singleton is i ih =>
    intro t shown hdo
    obtain ⟨t1, shown1, hdo1, hx⟩ := doAll_concat_eq_some hdo
    obtain ⟨l1, hl1, htracked⟩ := ih hdo1
    exact htracked.step (h.after_doAll hdo1) hdo1 hl1 hx

/-! ### Deliveries -/

/-- BUILD delivers nothing (R160). -/
theorem buildEvent_ne_deliver {p : Params} {q q' : Byte} {payload pay : List Byte} {k : BitVec 8} :
    buildEvent p q payload ≠ .deliver k q' pay := by
  unfold buildEvent
  split_ifs <;> nofun

/-- A command that delivers on link k is a byte on it that completes an accepted frame (R130, R62). -/
theorem exec_delivers {s t : State} {k : BitVec 8} {i : Instr} {q : Byte} {pay : List Byte} (h : s.Inv)
    (hx : exec i s = .next t) (hout : t.out = some (.deliver k q pay)) :
    ∃ b l, i = .rxb k b ∧ s.links[k.toNat]? = some l ∧ Accepted s.params (l.held ++ [b]) q pay := by
  cases hi : i.link? with
  | none =>
    obtain ⟨e, he, rfl⟩ := exec_engine_inversion hi hx
    cases he with
    | crcu c b => cases hout
    | crc hs => cases hout
    | build q' hs => exact absurd (Option.some.inj hout) buildEvent_ne_deliver
  | some j =>
    obtain ⟨l, r, -, hl, hr, rfl⟩ := exec_link_inversion hi hx
    rw [State.commit_out] at hout
    cases hr with
    | lreset => cases hout
    | tick => rw [l.tick_out] at hout; cases hout
    | rxb b hu =>
      cases Link.rxb_outcome (k := j) (b := b) (h.link hl) with
      | kept out _ _ _ => rw [out] at hout; cases hout
      | delivered q' pay' hacc eq =>
        rw [eq] at hout
        cases hout
        exact ⟨b, l, rfl, hl, hacc⟩
      | dropped d _ eq => rw [eq] at hout; cases hout

/-- Settles O45: the delivering byte completes an accepted frame of the bytes its link holds, and the run before it keeps
track of where those came from. -/
theorem deliveriesComeFromAcceptedFrames : Obligations.DeliveriesComeFromAcceptedFrames := by
  intro s t k l is shown n q pay d h hl hp hdo hshown
  obtain ⟨i, t1, shown1, t2, htake, hdo1, hx, heq⟩ := exec_of_shown hdo hshown
  obtain ⟨b, l1, rfl, hl1, hacc⟩ := exec_delivers (h.after_doAll hdo1) hx (congrArg Prod.fst heq)
  obtain ⟨l1', hl1', htracked⟩ := frameTracked_of_doAll h hl hp _ hdo1
  obtain rfl := Option.some.inj (hl1.symm.trans hl1')
  obtain ⟨before, after, s1, shown2, b1, l2, hsplit, hreset, hbefore, hl2, hp2, hbytes⟩ :=
    htracked.rxb b ((h.after_doAll hdo1).link hl1) hdo1 hl1
  rw [doAll_params hdo1, ← hbytes] at hacc
  exact ⟨before, after, s1, shown2, b1, l2, htake.trans hsplit, hreset, hbefore, hl2, hp2, hacc⟩

end Sys2Proof.Machine
